-- ==== Sys2Proof/Config.lean ====
section
/-! DEFINITION. The implementation parameters of spec/00_scope.md R5. Every one has a fixed value in the spec.
The spec leaves no value free that a request or an access goes on with, so there is no opaque constant here. -/

namespace Sys2Proof.Config

/-- `IBUF_CAP`: the number of bytes in IBUF (R5, decision D7). -/
abbrev ibufCap : Nat := 32

/-- `OBUF_CAP` = `max(8, 2 * (IBUF_CAP div 3))`: the number of bytes in OBUF (R5, decision D7). -/
abbrev obufCap : Nat := 20

/-- `NDIN`: the number of data-word registers (R5). -/
abbrev ndin : Nat := 2

/-- `NCMD`: the number of commands in the command table (R5). -/
abbrev ncmd : Nat := 9

end Sys2Proof.Config
end

