-- ==== Sys2Proof/Word.lean ====
section
/-! DEFINITION. The word types of the block (spec/00_scope.md R5, R6): every value is unsigned. -/

namespace Sys2Proof

/-- A buffer element or a host register: `BYTE` = 8 bits (R5). -/
abbrev Byte := BitVec 8

/-- A data word or a command code: `WORD` = 16 bits (R5). -/
abbrev Word := BitVec 16

/-- A host register address: `HADDR_W` = 7 bits (R5, R50). -/
abbrev HAddr := BitVec 7

/-- A request word: `RQ_W` = 16 bits (R5, R70). -/
abbrev RequestWord := BitVec 16

end Sys2Proof
end

