-- ==== Sys2Proof/Syntax.lean ====
section
/-! DEFINITION. The six requests of spec/opcode_table.json (spec/30_encoding.md R75), one constructor per row.
The operands are the request word's own fields (R70, R79): unsigned, used as they stand. -/

namespace Sys2Proof

/-- A request. An operand ranges over every value of its field, so a request with an operand outside R76 is a term
too: `Instr.WellFormed` refuses it, and its meaning takes the fault that R76 names. -/
inductive Instr where
  /-- `crc` (R93): the checksum of the 2-byte group in `DIN[0]`. -/
  | crc
  /-- `validate LEN` (R96). -/
  | validate (len : BitVec 6)
  /-- `strip LEN` (R127). -/
  | strip (len : BitVec 6)
  /-- `frame CMD` (R121). -/
  | frame (cmd : BitVec 4)
  /-- `framed CMD, NW` (R122, R123). -/
  | framed (cmd : BitVec 4) (nw : BitVec 2)
  /-- `lookup CMD` (R114). -/
  | lookup (cmd : BitVec 4)
deriving DecidableEq, Repr

end Sys2Proof
end

