-- ==== Sys2Proof/Decode.lean ====
section
/-! DEFINITION. Decoding and encoding of the request word (spec/30_encoding.md R70 to R81). -/

namespace Sys2Proof

/-- The fields of a request word (R70). -/
structure Fields where
  /-- `OP = rq[15:12]` -/
  op : BitVec 4
  /-- `CMD = rq[11:8]` -/
  cmd : BitVec 4
  /-- `NW = rq[7:6]` -/
  nw : BitVec 2
  /-- `LEN = rq[5:0]` -/
  len : BitVec 6
deriving DecidableEq, Repr

/-- R70: split a request word. -/
def fieldsOf (rq : RequestWord) : Fields :=
  { op := rq.extractLsb' 12 4, cmd := rq.extractLsb' 8 4, nw := rq.extractLsb' 6 2, len := rq.extractLsb' 0 6 }

/-- R70: join the four fields, `OP` highest. -/
def ofFields (f : Fields) : RequestWord := f.op ++ f.cmd ++ f.nw ++ f.len

/-- Why a word is no request of the table. -/
inductive Reject where
  /-- `OP` is 0x0 or 0x7 to 0xF (R78): ILLEGAL_OP. -/
  | reservedOp
  /-- `OP` is defined and a field that the request does not use is not 0 (R76): ILLEGAL_FIELD. -/
  | unusedFieldNotZero
deriving DecidableEq, Repr

/-- R75, R76, R77: the request a word names. The fields a request does not use must be 0; the RANGE of a field it
uses is checked by its meaning, which takes ILLEGAL_FIELD or CONTRACT as R77 says (log entry 6). -/
def decode (rq : RequestWord) : Except Reject Instr :=
  let f := fieldsOf rq
  match f.op.toNat with
  | 1 => if f.cmd = 0 ∧ f.nw = 0 ∧ f.len = 0 then .ok .crc else .error .unusedFieldNotZero
  | 2 => if f.cmd = 0 ∧ f.nw = 0 then .ok (.validate f.len) else .error .unusedFieldNotZero
  | 3 => if f.cmd = 0 ∧ f.nw = 0 then .ok (.strip f.len) else .error .unusedFieldNotZero
  | 4 => if f.nw = 0 ∧ f.len = 0 then .ok (.frame f.cmd) else .error .unusedFieldNotZero
  | 5 => if f.len = 0 then .ok (.framed f.cmd f.nw) else .error .unusedFieldNotZero
  | 6 => if f.nw = 0 ∧ f.len = 0 then .ok (.lookup f.cmd) else .error .unusedFieldNotZero
  | _ => .error .reservedOp

/-- R75, R81: the word of a request. -/
def encode : Instr → RequestWord
  | .crc => ofFields { op := 1, cmd := 0, nw := 0, len := 0 }
  | .validate len => ofFields { op := 2, cmd := 0, nw := 0, len := len }
  | .strip len => ofFields { op := 3, cmd := 0, nw := 0, len := len }
  | .frame cmd => ofFields { op := 4, cmd := cmd, nw := 0, len := 0 }
  | .framed cmd nw => ofFields { op := 5, cmd := cmd, nw := nw, len := 0 }
  | .lookup cmd => ofFields { op := 6, cmd := cmd, nw := 0, len := 0 }

/-- What the decoder reads from a row of spec/opcode_table.json. The one request length is 16 bits (R80), so a
word that does not fit in 16 bits, or a row of another length, is refused. -/
def decodeTableWord (nbits w : Nat) : Option Instr :=
  if nbits = 16 ∧ w < 2 ^ 16 then (decode (BitVec.ofNat 16 w)).toOption else none

end Sys2Proof
end

