-- ==== Sys2Proof/Machine/Bytes.lean ====
section
/-! DEFINITION. The two bytes of a 16-bit value. The order is big-endian on the wire and in the host register map
(spec/20_memory.md R57, R58). -/

namespace Sys2Proof.Machine

/-- `w[15:8]`, sent first (R22, R57). -/
def hiByte (w : Word) : Byte := w.extractLsb' 8 8

/-- `w[7:0]`. -/
def loByte (w : Word) : Byte := w.extractLsb' 0 8

/-- `{hi, lo}` (R6). -/
def joinBytes (hi lo : Byte) : Word := hi ++ lo

end Sys2Proof.Machine
end

