-- ==== Sys2Proof/Machine/State.lean ====
section
/-! DEFINITION. The state of one block (spec/10_state.md R20, R38), the host's actions that drive it
(spec/20_memory.md R50, R52, R53; spec/70_reset_and_hazards.md R170), and the reasons a step can stop. -/

namespace Sys2Proof.Machine

/-- The causes that STATUS.FCAUSE records (R31). Each is TAKEN: the machine goes on in a next state. -/
inductive Cause where
  /-- A request word with a reserved OP (R78). -/
  | illegalOp
  /-- A request word with a defined OP and a field outside R76. -/
  | illegalField
  /-- A `framed` request whose word count is not 1 or 2 (R123). -/
  | contract
  /-- An illegal host access (R56). -/
  | illegalAccess
deriving DecidableEq, Repr

/-- Why the machine stops. -/
inductive Fault where
  /-- UNWRITTEN_READ, the model fault of R65 (R35, R141, R145, R173; I1): raised by a host read of a byte of IBUF, OBUF or DIN that nothing has
  written since reset, and by `crc`, `validate`, `strip` and `framed` when they read such a byte. Safe: the
  hardware goes on with some byte, and the model proves nothing about it. -/
  | unwrittenRead
  /-- R143: a request word is issued while STATUS.FAULT = 1; the issue has no step. Raised by every request. Safe:
  the spec makes this state stuck. -/
  | requestStuck
deriving DecidableEq, Repr

/-- Why the model gives no meaning. -/
inductive Refusal where
  /-- The instruction has no meaning in the model yet; raised by `exec` only. Safe. No arm of `exec` answers it. -/
  | notModelled (mnemonic : String)
deriving DecidableEq, Repr

/-- One action of the host, the only agent (R61). -/
inductive HostAction where
  /-- `rd ADDR`: a host read of one byte (R52). -/
  | rd (a : HAddr)
  /-- `wr ADDR, BYTE`: a host write of one byte (R53). -/
  | wr (a : HAddr) (v : Byte)
  /-- A request word issued on the request port (R50, R77). -/
  | issue (rq : RequestWord)
  /-- `reset` (R170). -/
  | reset
deriving DecidableEq, Repr

/-- One data-word register (R22): its word, and beside each of its two bytes the mark of R35 that says whether the
byte has been written since reset. -/
structure DataWord where
  /-- `DIN[j]`. -/
  word : Word
  /-- `DIN[j][15:8]` has been written since reset. -/
  hiWritten : Bool
  /-- `DIN[j][7:0]` has been written since reset. -/
  loWritten : Bool
deriving DecidableEq, Repr

/-- A data-word register right after reset: unwritten (R38). R38 leaves the value unspecified; the word 0 is the
model's choice (DESIGN CHOICE, log entry 19), and no read returns it, since R65 stops every read of an unwritten byte. -/
def DataWord.reset : DataWord := { word := 0, hiWritten := false, loWritten := false }

/-- The state of one block, and the host's side of the two interfaces. -/
structure State where
  /-- The written bytes of IBUF and OBUF, keyed by their host register address (R51) and in rising order. A byte
  that is not listed is unwritten since reset, which is the mark of R35 (log entries 1, 2). -/
  mem : List Host.Cell
  /-- `DIN[0]` (R22). -/
  din0 : DataWord
  /-- `DIN[1]` (R22). -/
  din1 : DataWord
  /-- `OLEN` (R25). -/
  olen : Byte
  /-- `CRCOUT` (R26). -/
  crcout : Byte
  /-- `STATUS` (R27): VALID bit 0, CSERR bit 1, FAULT bit 2, FCAUSE bits 5:3. -/
  status : Byte
  /-- `INFO_CODE` (R32). -/
  infoCode : Word
  /-- `INFO_RSPLEN` (R32). -/
  infoRsplen : Byte
  /-- `INFO_NW` (R32). -/
  infoNw : Byte
  /-- The model's own: the host's actions still to come, the next one first (R21, R61; log entry 3). -/
  pending : List HostAction
  /-- The model's own: the bytes that host reads have returned, the newest first (R52; log entry 4). -/
  returned : List Byte
deriving DecidableEq, Repr

/-- R38: the state right after reset, with no host action pending and nothing returned. -/
def State.reset : State :=
  { mem := [], din0 := DataWord.reset, din1 := DataWord.reset, olen := 0, crcout := 0, status := 0, infoCode := 0,
    infoRsplen := 0, infoNw := 0, pending := [], returned := [] }

/-- The state with one more host action to come before the others. -/
def State.queue (s : State) (act : HostAction) : State := { s with pending := act :: s.pending }

end Sys2Proof.Machine
end

