-- ==== Sys2Proof/Machine/Flags.lean ====
section
/-! DEFINITION. STATUS and its fields (spec/10_state.md R27 to R31), and the two ways a field is ever written: a
completed request (R28, R29) and the fault action (R30). -/

namespace Sys2Proof.Machine

/-- `STATUS.VALID` (R27). -/
def statusValid (st : Byte) : Bool := st.getLsbD 0

/-- `STATUS.CSERR` (R27). -/
def statusCserr (st : Byte) : Bool := st.getLsbD 1

/-- `STATUS.FAULT` (R27). -/
def statusFault (st : Byte) : Bool := st.getLsbD 2

/-- `STATUS.FCAUSE` (R27). -/
def statusFcause (st : Byte) : BitVec 3 := st.extractLsb' 3 3

/-- `STATUS[7:6]`, which always reads 0 (R27). -/
def statusReserved (st : Byte) : BitVec 2 := st.extractLsb' 6 2

/-- The FCAUSE value of a cause (R31). -/
def causeCode : Cause → BitVec 3
  | .illegalOp => 1
  | .illegalField => 2
  | .contract => 3
  | .illegalAccess => 4

/-- R28, R29: STATUS after a request that completes; `mismatch` says whether it found a checksum mismatch. -/
def statusCompleted (st : Byte) (mismatch : Bool) : Byte :=
  (st &&& 0xFC#8) ||| (if mismatch then 0x03#8 else 0x01#8)

/-- R30, R142: STATUS after the fault action. The first cause since reset is kept. -/
def statusRaised (st : Byte) (cause : Cause) : Byte :=
  if statusFault st then st
  else (st &&& 0xC3#8) ||| 0x04#8 ||| ((causeCode cause).zeroExtend 8 <<< 3)

end Sys2Proof.Machine
end

