-- ==== Sys2Proof/Machine/Ops.lean ====
section
/-! DEFINITION. The operations that requests and host accesses share: the byte store of IBUF and OBUF, the
data-word registers, the acceptance of a request, its completion, and the fault action. -/

namespace Sys2Proof.Machine

/-! ### The byte store -/

/-- The host register address of `IBUF[0]` (R51). -/
def ibufBase : Nat := 0x00

/-- The host register address of `OBUF[0]` (R51). -/
def obufBase : Nat := 0x20

/-- The addresses of the bytes of IBUF and OBUF (R51), which leave no gap. -/
def isBufferAddr (a : Nat) : Bool := decide (a < obufBase + Config.obufCap)

/-- The byte at an address, or nothing where it is unwritten since reset (R35). -/
def Memory.read : List Host.Cell → Nat → Option Byte
  | [], _ => none
  | (k, v) :: rest, a => if k = a then some v else Memory.read rest a

/-- Write one byte, keeping the addresses in rising order; the byte is then written (R35, R53). -/
def Memory.write : List Host.Cell → Nat → Byte → List Host.Cell
  | [], a, v => [(a, v)]
  | (k, w) :: rest, a, v =>
    if a < k then (a, v) :: (k, w) :: rest
    else if a = k then (a, v) :: rest
    else (k, w) :: Memory.write rest a v

/-- The `n` bytes from an address on, or nothing where one of them is unwritten. -/
def Memory.readBytes (m : List Host.Cell) : Nat → Nat → Option (List Byte)
  | _, 0 => some []
  | a, n + 1 =>
    match Memory.read m a, Memory.readBytes m (a + 1) n with
    | some b, some bs => some (b :: bs)
    | _, _ => none

/-- Write bytes at consecutive addresses, the first at `a`. -/
def Memory.writeBytes : List Host.Cell → Nat → List Byte → List Host.Cell
  | m, _, [] => m
  | m, a, b :: bs => Memory.writeBytes (Memory.write m a b) (a + 1) bs

/-- Every address listed is above `lo` and the addresses rise. -/
def Memory.rising : List Host.Cell → Bool
  | [] => true
  | [_] => true
  | (k, _) :: (k', v') :: rest => decide (k < k') && Memory.rising ((k', v') :: rest)

/-- The canonical form: addresses strictly rising, each of them the address of a byte of IBUF or OBUF. An
unlisted address reads as no value, so no entry can equal what an unlisted address reads as. -/
def Memory.wf (m : List Host.Cell) : Bool := Memory.rising m && m.all (fun c => isBufferAddr c.1)

/-! ### The data-word registers -/

/-- `DIN[j]` with its marks (R22, R35). -/
def dinReg (s : State) : Fin 2 → DataWord
  | 0 => s.din0
  | 1 => s.din1

/-- The state with another `DIN[j]`. -/
def setDin (j : Fin 2) (d : DataWord) (s : State) : State :=
  match j with
  | 0 => { s with din0 := d }
  | 1 => { s with din1 := d }

/-- R54: write bits 15:8, mark them written, and leave bits 7:0. -/
def DataWord.writeHi (v : Byte) (d : DataWord) : DataWord :=
  { d with word := joinBytes v (loByte d.word), hiWritten := true }

/-- R54: write bits 7:0, mark them written, and leave bits 15:8. -/
def DataWord.writeLo (v : Byte) (d : DataWord) : DataWord :=
  { d with word := joinBytes (hiByte d.word) v, loWritten := true }

/-! ### Acceptance, inputs, completion -/

/-- R143: a request is accepted only while STATUS.FAULT = 0; otherwise its issue has no step. -/
def accept (s : State) (k : Host.Outcome State Fault Refusal) : Host.Outcome State Fault Refusal :=
  if statusFault s.status then .fault .requestStuck else k

/-- R65: go on with an input that was read, or stop where a byte of it is marked unwritten: "A model shall treat a read
of an unwritten byte as the model fault UNWRITTEN_READ, whoever reads it." The treatment that I1 of
spec/93_implementation_defined.md gives a model is "fault", and not "any value". -/
def withInput {α : Type} (input : Option α) (k : α → Host.Outcome State Fault Refusal) :
    Host.Outcome State Fault Refusal :=
  match input with
  | some v => k v
  | none => .fault .unwrittenRead

/-- R28, R29: the request completes. -/
def complete (mismatch : Bool) (s : State) : State :=
  { s with status := statusCompleted s.status mismatch }

/-- R24, R25: put a result into `OBUF` from index 0 on and its length into `OLEN`. -/
def putResult (bs : List Byte) (s : State) : State :=
  { s with mem := Memory.writeBytes s.mem obufBase bs, olen := BitVec.ofNat 8 bs.length }

/-! ### Taking a fault, and leaving it -/

/-- R142, the fault action `raise Fault(cause)`: it writes STATUS.FAULT and STATUS.FCAUSE and nothing else. There is
no saved pc, no mode and no handler. -/
def raiseFault (cause : Cause) (s : State) : State :=
  { s with status := statusRaised s.status cause }

/-- R147, R170: reset is the only way out of a fault. Every register takes its reset value and every byte of IBUF,
OBUF and DIN becomes unwritten; the host's own side stays (DESIGN CHOICE, log entry 12). -/
def hostReset (s : State) : State :=
  { State.reset with pending := s.pending, returned := s.returned }

end Sys2Proof.Machine
end

