-- ==== Sys2Proof/Machine/Operands.lean ====
section
/-! DEFINITION. The operands of the requests (spec/20_memory.md R64): bytes of IBUF and OBUF, words of DIN. -/

namespace Sys2Proof.Machine

/-- `IBUF[i]`, or nothing where it is unwritten (R23, R35). -/
def ibufByte (s : State) (i : Nat) : Option Byte := Memory.read s.mem (ibufBase + i)

/-- `OBUF[i]`, or nothing where it is unwritten (R24, R35). -/
def obufByte (s : State) (i : Nat) : Option Byte := Memory.read s.mem (obufBase + i)

/-- `DIN[j][15:8]`, or nothing where it is marked unwritten (R22, R35, R54). -/
def dinHi (s : State) (j : Fin 2) : Option Byte :=
  if (dinReg s j).hiWritten then some (hiByte (dinReg s j).word) else none

/-- `DIN[j][7:0]`, or nothing where it is marked unwritten (R22, R35, R54). -/
def dinLo (s : State) (j : Fin 2) : Option Byte :=
  if (dinReg s j).loWritten then some (loByte (dinReg s j).word) else none

/-- Both halves of `DIN[j]` have been written since reset (R35). -/
def dinWritten (s : State) (j : Fin 2) : Bool := (dinReg s j).hiWritten && (dinReg s j).loWritten

/-- `DIN[j]`, or nothing where a half is marked unwritten: a request that reads it reads both halves (R54). -/
def dinWord (s : State) (j : Fin 2) : Option Word :=
  if dinWritten s j then some (dinReg s j).word else none

/-- `DIN[0 .. NW-1]` (R64, R122); there are two words (R20). -/
def dinWords (s : State) : Nat → Option (List Word)
  | 0 => some []
  | 1 => (dinWord s 0).map fun w => [w]
  | _ + 2 => (dinWord s 0).bind fun w => (dinWord s 1).map fun w' => [w, w']

/-- The complete groups of `IBUF[0 .. LEN-1]`, which are `IBUF[0 .. 3G-1]` with `G = LEN div 3`. The bytes of a trailing
partial group are not read (R95, R96, R97). -/
def ibufGroups (s : State) (len : BitVec 6) : Option (List Byte) :=
  Memory.readBytes s.mem ibufBase (3 * (len.toNat / 3))

/-- Go on with an accepted LEN, or take ILLEGAL_FIELD (R74, R76). -/
def withLen (len : BitVec 6) (s : State) (k : Host.Outcome State Fault Refusal) :
    Host.Outcome State Fault Refusal :=
  if len.toNat ≤ Config.ibufCap then k else .next (raiseFault .illegalField s)

end Sys2Proof.Machine
end

