-- ==== Sys2Proof/Machine/Checksum.lean ====
section
/-! DEFINITION. The checksum engine (spec/41_checksum.md): `crc8`, the group check, and the requests `crc` and
`validate`. -/

namespace Sys2Proof.Machine

/-- The polynomial of R90. -/
def crcPoly : Byte := 0x31

/-- The initial register of R90. -/
def crcInit : Byte := 0xFF

/-- R90: one of the eight inner steps, most significant bit first. -/
def crcShift (r : Byte) : Byte := if r.getLsbD 7 then (r <<< 1) ^^^ crcPoly else r <<< 1

/-- R90: `n` inner steps. -/
def crcShifts : Nat → Byte → Byte
  | 0, r => r
  | n + 1, r => crcShifts n (crcShift r)

/-- R90: one byte is XORed into the register, and then eight inner steps are run. -/
def crcByte (r b : Byte) : Byte := crcShifts 8 (r ^^^ b)

/-- R90: `crc8` of a byte sequence. The register restarts for every sequence (R91). -/
def crc8 (bs : List Byte) : Byte := bs.foldl crcByte crcInit

/-- R91: the checksum of the 2-byte group `[a, b]`. -/
def checksum (a b : Byte) : Byte := crc8 [a, b]

/-- R94, R95: every complete group passes. A trailing partial group is left unvalidated (R97). -/
def groupsOk : List Byte → Bool
  | a :: b :: c :: rest => (checksum a b == c) && groupsOk rest
  | _ => true

/-- R93. -/
def execCrc (s : State) : Host.Outcome State Fault Refusal :=
  accept s <| withInput (dinWord s 0) fun w =>
    .next (complete false { s with crcout := checksum (hiByte w) (loByte w) })

/-- R96. -/
def execValidate (len : BitVec 6) (s : State) : Host.Outcome State Fault Refusal :=
  accept s <| withLen len s <| withInput (ibufGroups s len) fun b =>
    .next (complete (!groupsOk b) s)

end Sys2Proof.Machine
end

