-- ==== Sys2Proof/Machine/CommandTable.lean ====
section
/-! DEFINITION. The command table and `lookup` (spec/42_command_table.md). -/

namespace Sys2Proof.Machine

/-- The nine commands, in the source's listing order (R110). -/
inductive Command where
  | getSerial
  | selfTest
  | initAirQuality
  | measureAirQuality
  | measureRawSignals
  | getBaseline
  | setBaseline
  | setHumidity
  | getFeatureSet
deriving DecidableEq, Repr

/-- A row of the command table (R110). -/
structure CommandInfo where
  /-- The 2-byte command code. -/
  code : Word
  /-- The number of data words that the command's write carries (R113). -/
  nw : Byte
  /-- The length of the read that follows the command, 0 where there is none (R112). -/
  rsplen : Byte
deriving DecidableEq, Repr

/-- The command that an index names (R110); indices 9 to 15 name none (R115). -/
def commandAt : Nat → Option Command
  | 0 => some .getSerial
  | 1 => some .selfTest
  | 2 => some .initAirQuality
  | 3 => some .measureAirQuality
  | 4 => some .measureRawSignals
  | 5 => some .getBaseline
  | 6 => some .setBaseline
  | 7 => some .setHumidity
  | 8 => some .getFeatureSet
  | _ => none

/-- The row of a command (R110). -/
def commandInfo : Command → CommandInfo
  | .getSerial => { code := 0x3682, nw := 0, rsplen := 9 }
  | .selfTest => { code := 0x2032, nw := 0, rsplen := 3 }
  | .initAirQuality => { code := 0x2003, nw := 0, rsplen := 0 }
  | .measureAirQuality => { code := 0x2008, nw := 0, rsplen := 6 }
  | .measureRawSignals => { code := 0x2050, nw := 0, rsplen := 6 }
  | .getBaseline => { code := 0x2015, nw := 0, rsplen := 6 }
  | .setBaseline => { code := 0x201E, nw := 2, rsplen := 0 }
  | .setHumidity => { code := 0x2061, nw := 1, rsplen := 0 }
  | .getFeatureSet => { code := 0x202F, nw := 0, rsplen := 3 }

/-- `CMDTAB[k]` (R110). -/
def cmdTab (k : Nat) : Option CommandInfo := (commandAt k).map commandInfo

/-- Go on with the table's row of an index, or take ILLEGAL_FIELD where the index names no command (R76, R115). -/
def withCommand (cmd : BitVec 4) (s : State) (k : CommandInfo → Host.Outcome State Fault Refusal) :
    Host.Outcome State Fault Refusal :=
  match cmdTab cmd.toNat with
  | some e => k e
  | none => .next (raiseFault .illegalField s)

/-- R114. -/
def execLookup (cmd : BitVec 4) (s : State) : Host.Outcome State Fault Refusal :=
  accept s <| withCommand cmd s fun e =>
    .next (complete false { s with infoCode := e.code, infoRsplen := e.rsplen, infoNw := e.nw })

end Sys2Proof.Machine
end

