-- ==== Sys2Proof/Machine/Framer.lean ====
section
/-! DEFINITION. The transaction framer (spec/43_framer.md): `frame`, `framed` and `strip`. -/

namespace Sys2Proof.Machine

/-- A data word on the wire: high byte, low byte, checksum (R83, R120). -/
def wordGroup (w : Word) : List Byte := [hiByte w, loByte w, checksum (hiByte w) (loByte w)]

/-- R120: the frame of a command code with data words. The command bytes carry no checksum (R125). -/
def frameBytes (code : Word) (ws : List Word) : List Byte :=
  hiByte code :: loByte code :: ws.flatMap wordGroup

/-- R126: the two data bytes of every complete group; a trailing partial group is dropped (R129). -/
def stripBytes : List Byte → List Byte
  | a :: b :: _ :: rest => a :: b :: stripBytes rest
  | _ => []

/-- R121. -/
def execFrame (cmd : BitVec 4) (s : State) : Host.Outcome State Fault Refusal :=
  accept s <| withCommand cmd s fun e =>
    .next (complete false (putResult (frameBytes e.code []) s))

/-- R122, R123. The command index is checked before the word count (R145); the two are not compared (R124). -/
def execFramed (cmd : BitVec 4) (nw : BitVec 2) (s : State) : Host.Outcome State Fault Refusal :=
  accept s <| withCommand cmd s fun e =>
    if nw = 1#2 ∨ nw = 2#2 then
      withInput (dinWords s nw.toNat) fun ws => .next (complete false (putResult (frameBytes e.code ws) s))
    else .next (raiseFault .contract s)

/-- R127, R128. -/
def execStrip (len : BitVec 6) (s : State) : Host.Outcome State Fault Refusal :=
  accept s <| withLen len s <| withInput (ibufGroups s len) fun b =>
    .next (if groupsOk b then complete false (putResult (stripBytes b) s) else complete true { s with olen := 0 })

end Sys2Proof.Machine
end

