-- ==== Sys2Proof/Machine/Dispatch.lean ====
section
/-! DEFINITION. One arm per request of spec/opcode_table.json. -/

namespace Sys2Proof.Machine

def exec (i : Instr) (s : State) : Host.Outcome State Fault Refusal :=
  match i with
  | .crc => Sys2Proof.Machine.execCrc s
  | .validate len => Sys2Proof.Machine.execValidate len s
  | .strip len => Sys2Proof.Machine.execStrip len s
  | .frame cmd => Sys2Proof.Machine.execFrame cmd s
  | .framed cmd nw => Sys2Proof.Machine.execFramed cmd nw s
  | .lookup cmd => Sys2Proof.Machine.execLookup cmd s

end Sys2Proof.Machine
end

