-- ==== Sys2Proof/Machine/HostAccess.lean ====
section
/-! DEFINITION. The host register map and the host's accesses (spec/20_memory.md R51 to R56). -/

namespace Sys2Proof.Machine

/-- What a host register address names (R51). -/
inductive HostReg where
  | ibuf (i : Nat)
  | obuf (i : Nat)
  | dinHi (j : Fin 2)
  | dinLo (j : Fin 2)
  | crcout
  | olen
  | status
  | infoCodeHi
  | infoCodeLo
  | infoRsplen
  | infoNw
deriving DecidableEq, Repr

/-- The host register map (R51); nothing where the address is unmapped. -/
def hostReg (a : HAddr) : Option HostReg :=
  if a.toNat < 0x20 then some (.ibuf a.toNat)
  else if a.toNat < 0x34 then some (.obuf (a.toNat - 0x20))
  else match a.toNat with
    | 0x40 => some (.dinHi 0)
    | 0x41 => some (.dinLo 0)
    | 0x42 => some (.dinHi 1)
    | 0x43 => some (.dinLo 1)
    | 0x44 => some .crcout
    | 0x45 => some .olen
    | 0x46 => some .status
    | 0x48 => some .infoCodeHi
    | 0x49 => some .infoCodeLo
    | 0x4A => some .infoRsplen
    | 0x4B => some .infoNw
    | _ => none

/-- The content of a register (R51, R55), or nothing where the byte is unwritten (R35). -/
def hostContent (s : State) : HostReg → Option Byte
  | .ibuf i => ibufByte s i
  | .obuf i => obufByte s i
  | .dinHi j => dinHi s j
  | .dinLo j => dinLo s j
  | .crcout => some s.crcout
  | .olen => some s.olen
  | .status => some s.status
  | .infoCodeHi => some (hiByte s.infoCode)
  | .infoCodeLo => some (loByte s.infoCode)
  | .infoRsplen => some s.infoRsplen
  | .infoNw => some s.infoNw

/-- The state after a host write of the byte `v` to a register; nothing where the register is read-only (R51, R53,
R54). -/
def hostStore (v : Byte) (s : State) : HostReg → Option State
  | .ibuf i => some { s with mem := Memory.write s.mem (ibufBase + i) v }
  | .dinHi j => some (setDin j ((dinReg s j).writeHi v) s)
  | .dinLo j => some (setDin j ((dinReg s j).writeLo v) s)
  | .obuf _ | .crcout | .olen | .status | .infoCodeHi | .infoCodeLo | .infoRsplen | .infoNw => none

/-- Hand a byte to the host. -/
def returnByte (v : Byte) (s : State) : State := { s with returned := v :: s.returned }

/-- R52: a host read. A read of an unmapped address takes ILLEGAL_ACCESS and returns 0x00 (R56). -/
def hostRead (a : HAddr) (s : State) : Host.Outcome State Fault Refusal :=
  match hostReg a with
  | none => .next (returnByte 0x00 (raiseFault .illegalAccess s))
  | some r => withInput (hostContent s r) fun v => .next (returnByte v s)

/-- R53, R54: a host write, accepted whether or not STATUS.FAULT is 1. A write of an unmapped or read-only address
takes ILLEGAL_ACCESS and is discarded (R56). -/
def hostWrite (a : HAddr) (v : Byte) (s : State) : Host.Outcome State Fault Refusal :=
  match (hostReg a).bind (hostStore v s) with
  | none => .next (raiseFault .illegalAccess s)
  | some t => .next t

end Sys2Proof.Machine
end

