-- ==== Sys2Proof/Machine/Port.lean ====
section
/-! DEFINITION. The request port (spec/30_encoding.md R77) and the host's actions, one at a time
(spec/20_memory.md R61). -/

namespace Sys2Proof.Machine

/-- The cause that a word which names no request raises (R77, R78). -/
def rejectCause : Reject → Cause
  | .reservedOp => .illegalOp
  | .unusedFieldNotZero => .illegalField

/-- R77: a word that names no request takes its fault; while STATUS.FAULT = 1 it has no step, as every word (R143). -/
def rejectRequest (r : Reject) (s : State) : Host.Outcome State Fault Refusal :=
  accept s <| .next (raiseFault (rejectCause r) s)

/-- R77: `issue(rq)`. -/
def issue (rq : RequestWord) (s : State) : Host.Outcome State Fault Refusal :=
  match decode rq with
  | .ok i => exec i s
  | .error r => rejectRequest r s

/-- One host action (R61): a read (R52), a write (R53), a request (R77) or a reset (R170). -/
def perform (act : HostAction) (s : State) : Host.Outcome State Fault Refusal :=
  match act with
  | .rd a => hostRead a s
  | .wr a v => hostWrite a v s
  | .issue rq => issue rq s
  | .reset => .next (hostReset s)

/-- The oldest pending action is taken off and performed. With none pending the block waits for the host's next
action and nothing changes (R171; log entry 5). -/
def performNext (s : State) : Host.Outcome State Fault Refusal :=
  match s.pending with
  | [] => .next s
  | act :: rest => perform act { s with pending := rest }

end Sys2Proof.Machine
end

