-- ==== Sys2Proof/Machine/Step.lean ====
section
/-! DEFINITION. One step of the machine: one host action. -/

namespace Sys2Proof.Machine

/-- One step: the host's next action, whole (spec/00_scope.md R9, spec/20_memory.md R60). -/
def step (s : State) : Host.Outcome State Fault Refusal := performNext s

/-- The state whose next step issues the word `w` on the request port. The block fetches nothing (R21): the host's
next action is the issue, and what was pending comes after it (log entry 3). -/
def State.withFetchWord (s : State) (_nbits w : Nat) : State := s.queue (.issue (BitVec.ofNat 16 w))

end Sys2Proof.Machine
end

