-- ==== Sys2Proof/Machine/Blocks.lean ====
section
/-! DEFINITION. Several blocks beside each other (spec/10_state.md R39, spec/60_exceptions.md R153): each has its own
copy of the whole state, and they share nothing. -/

namespace Sys2Proof.Machine

/-- Block `k` of several makes one step. An index that names no block changes nothing. -/
def stepBlock (blocks : List State) (k : Nat) : Host.Outcome (List State) Fault Refusal :=
  match blocks[k]? with
  | none => .next blocks
  | some s =>
    match step s with
    | .next s' => .next (blocks.set k s')
    | .fault r => .fault r
    | .refused r => .refused r

end Sys2Proof.Machine
end

