-- ==== Sys2Proof/Machine/HostProgram.lean ====
section
/-! DEFINITION. The spelling of requests and the host's pseudo-instructions (spec/30_encoding.md R81, R82): lists of
host actions, to be put into `State.pending`. -/

namespace Sys2Proof.Machine

/-- The index of a command (R110). -/
def commandIndex : Command → BitVec 4
  | .getSerial => 0
  | .selfTest => 1
  | .initAirQuality => 2
  | .measureAirQuality => 3
  | .measureRawSignals => 4
  | .getBaseline => 5
  | .setBaseline => 6
  | .setHumidity => 7
  | .getFeatureSet => 8

/-- The name of a command (R110). -/
def commandName : Command → String
  | .getSerial => "GetSerial"
  | .selfTest => "SelfTest"
  | .initAirQuality => "InitAirQuality"
  | .measureAirQuality => "MeasureAirQuality"
  | .measureRawSignals => "MeasureRawSignals"
  | .getBaseline => "GetBaseline"
  | .setBaseline => "SetBaseline"
  | .setHumidity => "SetHumidity"
  | .getFeatureSet => "GetFeatureSet"

/-- A CMD operand as R81 spells it: the command's name, or the number where the index names no command, in decimal
(DESIGN CHOICE, log entry 18). -/
def cmdText (cmd : BitVec 4) : String :=
  match commandAt cmd.toNat with
  | some c => commandName c
  | none => toString cmd.toNat

/-- A request as R81 spells it. -/
def requestText : Instr → String
  | .crc => "crc"
  | .validate len => "validate " ++ toString len.toNat
  | .strip len => "strip " ++ toString len.toNat
  | .frame cmd => "frame " ++ cmdText cmd
  | .framed cmd nw => "framed " ++ cmdText cmd ++ ", " ++ toString nw.toNat
  | .lookup cmd => "lookup " ++ cmdText cmd

/-- The name of a host register (R51). -/
def regName : HostReg → String
  | .ibuf i => "IBUF" ++ toString i
  | .obuf i => "OBUF" ++ toString i
  | .dinHi j => "DIN" ++ toString j.val ++ "_HI"
  | .dinLo j => "DIN" ++ toString j.val ++ "_LO"
  | .crcout => "CRCOUT"
  | .olen => "OLEN"
  | .status => "STATUS"
  | .infoCodeHi => "INFO_CODE_HI"
  | .infoCodeLo => "INFO_CODE_LO"
  | .infoRsplen => "INFO_RSPLEN"
  | .infoNw => "INFO_NW"

/-- An ADDR operand as R81 spells it: a register's name, or the number where the address is unmapped. R81 fixes no
number base for ADDR; the model prints decimal (DESIGN CHOICE, log entry 18). -/
def addrText (a : HAddr) : String :=
  match hostReg a with
  | some r => regName r
  | none => toString a.toNat

/-- A host action as R81 spells it; nothing for the issue of a word that names no request. R81 fixes no number base
for BYTE; the model prints decimal (DESIGN CHOICE, log entry 18). -/
def actionText : HostAction → Option String
  | .rd a => some ("rd " ++ addrText a)
  | .wr a v => some ("wr " ++ addrText a ++ ", " ++ toString v.toNat)
  | .issue rq => (decode rq).toOption.map requestText
  | .reset => some "reset"

/-- The host action that issues a request. -/
def requestAction (i : Instr) : HostAction := .issue (encode i)

/-- `wrw J, W` (R82): the two host writes of a data word, high byte first. -/
def wrw (j : Fin 2) (w : Word) : List HostAction :=
  [.wr (BitVec.ofNat 7 (0x40 + 2 * j.val)) (hiByte w), .wr (BitVec.ofNat 7 (0x41 + 2 * j.val)) (loByte w)]

/-- Host writes of bytes at consecutive addresses, the first at `a`. -/
def writesFrom : Nat → List Byte → List HostAction
  | _, [] => []
  | a, b :: bs => .wr (BitVec.ofNat 7 a) b :: writesFrom (a + 1) bs

/-- `load b0, …, bn-1` (R82), defined for 1 to 32 bytes. -/
def load (bs : List Byte) : Option (List HostAction) :=
  if 1 ≤ bs.length ∧ bs.length ≤ Config.ibufCap then some (writesFrom 0 bs) else none

/-- `send CMD` (R82): `frame` where the command carries no data, else `framed` with the table's word count. -/
def send (c : Command) : List HostAction :=
  if (commandInfo c).nw = 0 then [requestAction (.frame (commandIndex c))]
  else [requestAction (.framed (commandIndex c) (BitVec.ofNat 2 (commandInfo c).nw.toNat))]

/-- `recv CMD` (R82), defined for the commands that have a read. -/
def recv (c : Command) : Option (List HostAction) :=
  if (commandInfo c).rsplen = 0 then none
  else some [requestAction (.strip (BitVec.ofNat 6 (commandInfo c).rsplen.toNat))]

end Sys2Proof.Machine
end

