-- ==== Sys2Proof/WellFormed.lean ====
section
/-! DEFINITION. A well-formed request has legal operands: those with which spec/30_encoding.md R77 executes it
and raises no fault (R76 and, for `framed`, R123). -/

namespace Sys2Proof

/-- R74, R76: a LEN that `validate` and `strip` accept. -/
def lenLegal (len : BitVec 6) : Bool := decide (len.toNat ≤ Config.ibufCap)

/-- R72, R76: a CMD that names a command. -/
def cmdLegal (cmd : BitVec 4) : Bool := decide (cmd.toNat < Config.ncmd)

/-- R73, R123: a word count that `framed` completes with. -/
def nwLegal (nw : BitVec 2) : Bool := nw == 1#2 || nw == 2#2

/-- R77: the request has legal operands. -/
def Instr.wf : Instr → Bool
  | .crc => true
  | .validate len => lenLegal len
  | .strip len => lenLegal len
  | .frame cmd => cmdLegal cmd
  | .framed cmd nw => cmdLegal cmd && nwLegal nw
  | .lookup cmd => cmdLegal cmd

/-- The check as a decidable proposition. -/
abbrev Instr.WellFormed (i : Instr) : Prop := i.wf = true

end Sys2Proof
end

