-- ==== Sys2Proof/Safety.lean ====
section
/-! DEFINITION. The terms in which claims are stated: outcomes, the inputs a request reads, what a request leaves
unchanged, and the invariant of the machine. -/

namespace Sys2Proof.Machine

/-- The next state of an outcome. -/
def nextOf {σ : Type} : Host.Outcome σ Fault Refusal → Option σ
  | .next s => some s
  | .fault _ => none
  | .refused _ => none

/-- The fault of an outcome. -/
def faultOf {σ : Type} : Host.Outcome σ Fault Refusal → Option Fault
  | .next _ => none
  | .fault r => some r
  | .refused _ => none

/-- STATUS.FAULT = 0: the block accepts requests (R143). -/
def State.accepting (s : State) : Bool := !statusFault s.status

/-- R173: every input byte that the request reads has been written since reset. -/
def inputsWritten (i : Instr) (s : State) : Bool :=
  match i with
  | .crc => dinWritten s 0
  | .validate len => (List.range (3 * (len.toNat / 3))).all fun k => (ibufByte s k).isSome
  | .strip len => (List.range (3 * (len.toNat / 3))).all fun k => (ibufByte s k).isSome
  | .frame _ => true
  | .framed _ nw =>
    match nw.toNat with
    | 1 => dinWritten s 0
    | 2 => dinWritten s 0 && dinWritten s 1
    | _ => true
  | .lookup _ => true

/-- The data-word registers and their marks are the same in `t` as in `s`. -/
def sameDin (s t : State) : Prop := t.din0 = s.din0 ∧ t.din1 = s.din1

/-- IBUF and DIN hold in `t` what they hold in `s` (R22, R23: no request writes them). -/
def sameInputs (s t : State) : Prop := (∀ k, k < Config.ibufCap → ibufByte t k = ibufByte s k) ∧ sameDin s t

/-- Every byte of IBUF and OBUF, and DIN, hold in `t` what they hold in `s`. -/
def sameBytes (s t : State) : Prop := (∀ a, Memory.read t.mem a = Memory.read s.mem a) ∧ sameDin s t

/-- The host's side is the same in `t` as in `s`. -/
def sameHostSide (s t : State) : Prop := t.pending = s.pending ∧ t.returned = s.returned

/-- The lookup results are the same in `t` as in `s`. -/
def sameInfo (s t : State) : Prop :=
  t.infoCode = s.infoCode ∧ t.infoRsplen = s.infoRsplen ∧ t.infoNw = s.infoNw

/-- R28, R29: from STATUS `st` to STATUS `st'` a request has completed: VALID is 1, CSERR is the result, and FAULT,
FCAUSE and the reserved bits are as before. -/
def completedStatus (st st' : Byte) (mismatch : Bool) : Prop :=
  statusValid st' = true ∧ statusCserr st' = mismatch ∧ statusFault st' = statusFault st ∧
    statusFcause st' = statusFcause st ∧ statusReserved st' = statusReserved st

/-- R30, R142: from STATUS `st` to STATUS `st'` a fault with the FCAUSE value `code` has been taken: the first one
since reset is recorded, a later one changes nothing; VALID, CSERR and the reserved bits are as before. -/
def raisedStatus (st st' : Byte) (code : BitVec 3) : Prop :=
  statusFault st' = true ∧ statusFcause st' = (if statusFault st then statusFcause st else code) ∧
    statusValid st' = statusValid st ∧ statusCserr st' = statusCserr st ∧ statusReserved st' = statusReserved st

/-- Everything but STATUS is the same in `t` as in `s`. -/
def sameButStatus (s t : State) : Prop := { t with status := s.status } = s

/-- The byte table `T` as spec/95_test_vectors.md 2.1 lists it: row by the high nibble, column by the low. -/
def specTable : List Byte :=
  [0x00, 0x31, 0x62, 0x53, 0xC4, 0xF5, 0xA6, 0x97, 0xB9, 0x88, 0xDB, 0xEA, 0x7D, 0x4C, 0x1F, 0x2E] ++
  [0x43, 0x72, 0x21, 0x10, 0x87, 0xB6, 0xE5, 0xD4, 0xFA, 0xCB, 0x98, 0xA9, 0x3E, 0x0F, 0x5C, 0x6D] ++
  [0x86, 0xB7, 0xE4, 0xD5, 0x42, 0x73, 0x20, 0x11, 0x3F, 0x0E, 0x5D, 0x6C, 0xFB, 0xCA, 0x99, 0xA8] ++
  [0xC5, 0xF4, 0xA7, 0x96, 0x01, 0x30, 0x63, 0x52, 0x7C, 0x4D, 0x1E, 0x2F, 0xB8, 0x89, 0xDA, 0xEB] ++
  [0x3D, 0x0C, 0x5F, 0x6E, 0xF9, 0xC8, 0x9B, 0xAA, 0x84, 0xB5, 0xE6, 0xD7, 0x40, 0x71, 0x22, 0x13] ++
  [0x7E, 0x4F, 0x1C, 0x2D, 0xBA, 0x8B, 0xD8, 0xE9, 0xC7, 0xF6, 0xA5, 0x94, 0x03, 0x32, 0x61, 0x50] ++
  [0xBB, 0x8A, 0xD9, 0xE8, 0x7F, 0x4E, 0x1D, 0x2C, 0x02, 0x33, 0x60, 0x51, 0xC6, 0xF7, 0xA4, 0x95] ++
  [0xF8, 0xC9, 0x9A, 0xAB, 0x3C, 0x0D, 0x5E, 0x6F, 0x41, 0x70, 0x23, 0x12, 0x85, 0xB4, 0xE7, 0xD6] ++
  [0x7A, 0x4B, 0x18, 0x29, 0xBE, 0x8F, 0xDC, 0xED, 0xC3, 0xF2, 0xA1, 0x90, 0x07, 0x36, 0x65, 0x54] ++
  [0x39, 0x08, 0x5B, 0x6A, 0xFD, 0xCC, 0x9F, 0xAE, 0x80, 0xB1, 0xE2, 0xD3, 0x44, 0x75, 0x26, 0x17] ++
  [0xFC, 0xCD, 0x9E, 0xAF, 0x38, 0x09, 0x5A, 0x6B, 0x45, 0x74, 0x27, 0x16, 0x81, 0xB0, 0xE3, 0xD2] ++
  [0xBF, 0x8E, 0xDD, 0xEC, 0x7B, 0x4A, 0x19, 0x28, 0x06, 0x37, 0x64, 0x55, 0xC2, 0xF3, 0xA0, 0x91] ++
  [0x47, 0x76, 0x25, 0x14, 0x83, 0xB2, 0xE1, 0xD0, 0xFE, 0xCF, 0x9C, 0xAD, 0x3A, 0x0B, 0x58, 0x69] ++
  [0x04, 0x35, 0x66, 0x57, 0xC0, 0xF1, 0xA2, 0x93, 0xBD, 0x8C, 0xDF, 0xEE, 0x79, 0x48, 0x1B, 0x2A] ++
  [0xC1, 0xF0, 0xA3, 0x92, 0x05, 0x34, 0x67, 0x56, 0x78, 0x49, 0x1A, 0x2B, 0xBC, 0x8D, 0xDE, 0xEF] ++
  [0x82, 0xB3, 0xE0, 0xD1, 0x46, 0x77, 0x24, 0x15, 0x3B, 0x0A, 0x59, 0x68, 0xFF, 0xCE, 0x9D, 0xAC]

/-- `T[x]`. -/
def specT (x : Byte) : Byte := specTable.getD x.toNat 0

/-- R77, read off the word's fields as numbers: the fault that issuing a word raises while STATUS.FAULT = 0, or none
where the word names a request with legal operands. The checks stand in the order of R77. -/
def faultOfWord (rq : RequestWord) : Option Cause :=
  let op := rq.toNat / 4096
  let cmd := rq.toNat / 256 % 16
  let nw := rq.toNat / 64 % 4
  let len := rq.toNat % 64
  if op = 0 ∨ 7 ≤ op then some .illegalOp
  else if op = 1 ∧ (cmd ≠ 0 ∨ nw ≠ 0 ∨ len ≠ 0) then some .illegalField
  else if (op = 2 ∨ op = 3) ∧ (cmd ≠ 0 ∨ nw ≠ 0 ∨ 32 < len) then some .illegalField
  else if (op = 4 ∨ op = 6) ∧ (8 < cmd ∨ nw ≠ 0 ∨ len ≠ 0) then some .illegalField
  else if op = 5 ∧ (8 < cmd ∨ len ≠ 0) then some .illegalField
  else if op = 5 ∧ nw ≠ 1 ∧ nw ≠ 2 then some .contract
  else none

/-- R56: an unmapped host address (R51). -/
def unmappedAddr (a : HAddr) : Bool :=
  (decide (0x34 ≤ a.toNat) && decide (a.toNat ≤ 0x3F)) || a == 0x47#7 || decide (0x4C ≤ a.toNat)

/-- A host address that R51 marks RO. -/
def readOnlyAddr (a : HAddr) : Bool :=
  (decide (0x20 ≤ a.toNat) && decide (a.toNat ≤ 0x33)) ||
    (decide (0x44 ≤ a.toNat) && decide (a.toNat ≤ 0x46)) || (decide (0x48 ≤ a.toNat) && decide (a.toNat ≤ 0x4B))

/-- The result and status registers are the same in `t` as in `s`. -/
def sameRegisters (s t : State) : Prop :=
  t.olen = s.olen ∧ t.crcout = s.crcout ∧ t.status = s.status ∧ sameInfo s t

/-- Every byte of OBUF from index `n` on, every byte of IBUF, and DIN, hold in `t` what they hold in `s`. -/
def sameBytesButObufBelow (n : Nat) (s t : State) : Prop :=
  (∀ a, (a < obufBase ∨ obufBase + n ≤ a) → Memory.read t.mem a = Memory.read s.mem a) ∧ sameDin s t

/-- Some complete group of `IBUF[0 .. LEN-1]` fails (R94, R95). -/
def someGroupFails (s : State) (len : BitVec 6) : Prop :=
  ∃ g, g < len.toNat / 3 ∧ ∃ a b c, ibufByte s (3 * g) = some a ∧ ibufByte s (3 * g + 1) = some b ∧
    ibufByte s (3 * g + 2) = some c ∧ checksum a b ≠ c

/-- Two data-word registers with the same marks and the same written halves; unwritten halves may differ. -/
def DataWord.agrees (d d' : DataWord) : Prop :=
  d'.hiWritten = d.hiWritten ∧ d'.loWritten = d.loWritten ∧
    (d.hiWritten = true → hiByte d'.word = hiByte d.word) ∧ (d.loWritten = true → loByte d'.word = loByte d.word)

/-- The states differ at most in unwritten halves of DIN. -/
def sameButUnwrittenDin (s s' : State) : Prop :=
  s.din0.agrees s'.din0 ∧ s.din1.agrees s'.din1 ∧ { s' with din0 := s.din0, din1 := s.din1 } = s

/-- Put a byte into the byte store of IBUF and OBUF. -/
def poke (a : Nat) (v : Byte) (s : State) : State := { s with mem := Memory.write s.mem a v }

/-- Apply a function to the next state of an outcome. -/
def mapNext (f : State → State) : Host.Outcome State Fault Refusal → Host.Outcome State Fault Refusal
  | .next s => .next (f s)
  | .fault r => .fault r
  | .refused r => .refused r

/-- The invariant: the legal values of the registers and the canonical form of the byte store. -/
structure State.Inv (s : State) : Prop where
  /-- The byte store is in canonical form and holds bytes of IBUF and OBUF only. -/
  memCanonical : Memory.wf s.mem = true
  /-- STATUS[7:6] reads 0 (R27). -/
  statusReservedZero : statusReserved s.status = 0
  /-- FCAUSE is 1 to 4 while FAULT = 1 (R31: 5 to 7 are never produced). -/
  fcauseOfFault : statusFault s.status = true → 1 ≤ (statusFcause s.status).toNat ∧ (statusFcause s.status).toNat ≤ 4
  /-- FCAUSE is 0 while FAULT = 0 (R27). -/
  fcauseOfNoFault : statusFault s.status = false → statusFcause s.status = 0
  /-- A mismatch is the result of a completed request (R27, R29). -/
  cserrCompleted : statusCserr s.status = true → statusValid s.status = true
  /-- The legal values of OLEN (R25): 0, 2, 4, up to 20, and 5. -/
  olenLegal : s.olen.toNat = 5 ∨ (s.olen.toNat % 2 = 0 ∧ s.olen.toNat ≤ Config.obufCap)
  /-- OLEN counts valid bytes: each of OBUF[0 .. OLEN-1] has been written (R24, R25). -/
  resultWritten : ∀ k, k < s.olen.toNat → (obufByte s k).isSome = true
  /-- INFO_* hold their reset values or one row of the command table (R32). -/
  infoFromTable : (s.infoCode = 0 ∧ s.infoRsplen = 0 ∧ s.infoNw = 0) ∨
    ∃ k, cmdTab k = some { code := s.infoCode, nw := s.infoNw, rsplen := s.infoRsplen }

end Sys2Proof.Machine
end

