-- ==== Sys2Proof/Certificates/Slice0/Obligations.lean ====
section
/-! DEFINITION. The statements about the block, taken from the numbered rules of spec/. -/

open Sys2Proof Sys2Proof.Machine

/-! ### The request word -/

/-- R70, R75, R76: no bit of a request's word is dropped; every operand at every value of its field. -/
def Obligations.DecodeOfEncodeIsTheRequest : Prop := ∀ i : Instr, decode (encode i) = .ok i

/-- R75, R76: a word that names a request is that request's word, so no two words name the same request. -/
def Obligations.EncodeOfDecodedIsTheWord : Prop :=
  ∀ (rq : RequestWord) (i : Instr), decode rq = .ok i → encode i = rq

/-- Each row of the opcode table, mask and match: which words the decoder takes for it, and with which operands. -/
def Obligations.DecodeFollowsTheOpcodeTable : Prop :=
  ∀ rq : RequestWord,
    (decode rq = .ok .crc ↔ rq &&& 0xFFFF#16 = 0x1000#16) ∧
    (∀ len, decode rq = .ok (.validate len) ↔ rq &&& 0xFFC0#16 = 0x2000#16 ∧ len.toNat = rq.toNat % 64) ∧
    (∀ len, decode rq = .ok (.strip len) ↔ rq &&& 0xFFC0#16 = 0x3000#16 ∧ len.toNat = rq.toNat % 64) ∧
    (∀ cmd, decode rq = .ok (.frame cmd) ↔ rq &&& 0xF0FF#16 = 0x4000#16 ∧ cmd.toNat = rq.toNat / 256 % 16) ∧
    (∀ cmd nw, decode rq = .ok (.framed cmd nw) ↔
      rq &&& 0xF03F#16 = 0x5000#16 ∧ cmd.toNat = rq.toNat / 256 % 16 ∧ nw.toNat = rq.toNat / 64 % 4) ∧
    (∀ cmd, decode rq = .ok (.lookup cmd) ↔ rq &&& 0xF0FF#16 = 0x6000#16 ∧ cmd.toNat = rq.toNat / 256 % 16)

/-- R81: the words of the six requests, as numbers. -/
def Obligations.EncodeGivesTheWordsOfR81 : Prop :=
  (encode .crc).toNat = 0x1000 ∧ (∀ len, (encode (.validate len)).toNat = 0x2000 + len.toNat) ∧
  (∀ len, (encode (.strip len)).toNat = 0x3000 + len.toNat) ∧
  (∀ cmd, (encode (.frame cmd)).toNat = 0x4000 + cmd.toNat * 256) ∧
  (∀ cmd nw, (encode (.framed cmd nw)).toNat = 0x5000 + cmd.toNat * 256 + nw.toNat * 64) ∧
  ∀ cmd, (encode (.lookup cmd)).toNat = 0x6000 + cmd.toNat * 256

/-- Words of spec/95_test_vectors.md, written out, and the requests they stand for. -/
def Obligations.DecodeOfListedWords : Prop :=
  decode 0x1000 = .ok .crc ∧ decode 0x2008 = .ok (.validate 8) ∧ decode 0x3020 = .ok (.strip 32) ∧
  decode 0x4300 = .ok (.frame 3) ∧ decode 0x5740 = .ok (.framed 7 1) ∧ decode 0x5680 = .ok (.framed 6 2) ∧
  decode 0x6800 = .ok (.lookup 8) ∧ decode 0x0000 = .error .reservedOp ∧ decode 0x7000 = .error .reservedOp ∧
  decode 0xF123 = .error .reservedOp ∧ decode 0x1040 = .error .unusedFieldNotZero ∧
  decode 0x4340 = .error .unusedFieldNotZero

/-- R77: exactly 103 words name a request with legal operands. -/
def Obligations.ExactlyOneHundredThreeLegalWords : Prop :=
  ∃ ws : List RequestWord, ws.Nodup ∧ ws.length = 103 ∧
    ∀ rq, rq ∈ ws ↔ ∃ i : Instr, i.WellFormed ∧ decode rq = .ok i

/-! ### Steps, and the issue of a word -/

/-- A step whose action is the issue of a word that decodes to a request is `exec` of the request, in the state in
which that action has been taken off. `withFetchWord` places exactly such an issue. -/
def Obligations.StepRunsTheDecodedRequest : Prop :=
  (∀ (s : State) (rq : RequestWord) (i : Instr) (rest : List HostAction),
    s.pending = .issue rq :: rest → decode rq = .ok i → step s = exec i { s with pending := rest }) ∧
  ∀ (s : State) (i : Instr), step (s.withFetchWord 16 (encode i).toNat) = exec i s

/-- R77, R78, R145: while STATUS.FAULT = 0, a word takes the first fault that applies, and nothing but STATUS.FAULT and
STATUS.FCAUSE is written; a word for which none applies names a request with legal operands, and that is run. -/
def Obligations.IssueTakesTheFirstFaultThatApplies : Prop :=
  ∀ (s : State) (rq : RequestWord), s.accepting = true →
    (∀ c, faultOfWord rq = some c →
      ∃ t, step (s.queue (.issue rq)) = .next t ∧ raisedStatus s.status t.status (causeCode c) ∧ sameButStatus s t) ∧
    (faultOfWord rq = none →
      ∃ i, decode rq = .ok i ∧ i.WellFormed ∧ step (s.queue (.issue rq)) = exec i s)

/-- R143: while STATUS.FAULT = 1 the issue of any word has no step; host reads, host writes and reset still work, and
an illegal access changes nothing more. That reset keeps the host's pending actions and what reads have returned is no
rule of the spec but the model's choice (DESIGN CHOICE, log entry 12), and so is the word of an unwritten DIN after it
(log entry 19). -/
def Obligations.OnlyRequestsAreStuckWhileFaulted : Prop :=
  ∀ s : State, s.accepting = false →
    (∀ rq, step (s.queue (.issue rq)) = .fault .requestStuck) ∧
    (∀ i, exec i s = .fault .requestStuck) ∧
    (∀ a r v, hostReg a = some r → hostContent s r = some v →
      step (s.queue (.rd a)) = .next { s with returned := v :: s.returned }) ∧
    (∀ k v, k < 32 → step (s.queue (.wr (BitVec.ofNat 7 k) v)) = .next { s with mem := Memory.write s.mem k v }) ∧
    (∀ (j : Fin 2) v, step (s.queue (.wr (BitVec.ofNat 7 (0x40 + 2 * j.val)) v)) =
      .next (setDin j ((dinReg s j).writeHi v) s)) ∧
    (∀ (j : Fin 2) v, step (s.queue (.wr (BitVec.ofNat 7 (0x41 + 2 * j.val)) v)) =
      .next (setDin j ((dinReg s j).writeLo v) s)) ∧
    (∀ a, unmappedAddr a = true → step (s.queue (.rd a)) = .next { s with returned := 0x00 :: s.returned }) ∧
    (∀ a v, (unmappedAddr a = true ∨ readOnlyAddr a = true) → step (s.queue (.wr a v)) = .next s) ∧
    step (s.queue .reset) = .next { State.reset with pending := s.pending, returned := s.returned }

/-- R171 and the model's choice of log entry 5: with no host action pending a step changes nothing. -/
def Obligations.WaitingChangesNothing : Prop := ∀ s : State, s.pending = [] → step s = .next s

/-- R21, R61: the host's actions are performed one a step and in the host's order; no action adds, drops or reorders
another. -/
def Obligations.HostActionsRunInOrder : Prop := ∀ s t : State, step s = .next t → t.pending = s.pending.tail

/-- R140, R143, R65: a step never refuses, and it stops only at the issue of a word while STATUS.FAULT = 1 or where a
read or a request meets an unwritten byte while it is accepted. -/
def Obligations.StepStopsOnlyWhenStuckOrUnwritten : Prop :=
  ∀ s : State,
    (∀ r, step s ≠ .refused r) ∧
    (step s = .fault .requestStuck ↔ s.accepting = false ∧ ∃ rq rest, s.pending = .issue rq :: rest) ∧
    (step s = .fault .unwrittenRead ↔
      (∃ a r rest, s.pending = .rd a :: rest ∧ hostReg a = some r ∧ hostContent s r = none) ∨
      ∃ rq i rest, s.pending = .issue rq :: rest ∧ s.accepting = true ∧ decode rq = .ok i ∧ i.WellFormed ∧
        inputsWritten i s = false)

/-! ### Host reads and writes -/

/-- R51, R52, R55: the address of every readable byte and what a read of it returns; a read changes nothing but what
the host has been handed. -/
def Obligations.ReadReturnsTheMappedContent : Prop :=
  ∀ s : State,
    (∀ k v, k < 32 → ibufByte s k = some v →
      step (s.queue (.rd (BitVec.ofNat 7 k))) = .next { s with returned := v :: s.returned }) ∧
    (∀ k v, k < 20 → obufByte s k = some v →
      step (s.queue (.rd (BitVec.ofNat 7 (0x20 + k)))) = .next { s with returned := v :: s.returned }) ∧
    (∀ v, dinHi s 0 = some v → step (s.queue (.rd 0x40)) = .next { s with returned := v :: s.returned }) ∧
    (∀ v, dinLo s 0 = some v → step (s.queue (.rd 0x41)) = .next { s with returned := v :: s.returned }) ∧
    (∀ v, dinHi s 1 = some v → step (s.queue (.rd 0x42)) = .next { s with returned := v :: s.returned }) ∧
    (∀ v, dinLo s 1 = some v → step (s.queue (.rd 0x43)) = .next { s with returned := v :: s.returned }) ∧
    step (s.queue (.rd 0x44)) = .next { s with returned := s.crcout :: s.returned } ∧
    step (s.queue (.rd 0x45)) = .next { s with returned := s.olen :: s.returned } ∧
    step (s.queue (.rd 0x46)) = .next { s with returned := s.status :: s.returned } ∧
    step (s.queue (.rd 0x48)) = .next { s with returned := hiByte s.infoCode :: s.returned } ∧
    step (s.queue (.rd 0x49)) = .next { s with returned := loByte s.infoCode :: s.returned } ∧
    step (s.queue (.rd 0x4A)) = .next { s with returned := s.infoRsplen :: s.returned } ∧
    step (s.queue (.rd 0x4B)) = .next { s with returned := s.infoNw :: s.returned }

/-- R65: a read of an unwritten byte is the model fault UNWRITTEN_READ, whoever reads it: the host, or a request that
passed every check. -/
def Obligations.ReadOfUnwrittenByteFaults : Prop :=
  ∀ s : State,
    (∀ k, k < 32 → ibufByte s k = none → step (s.queue (.rd (BitVec.ofNat 7 k))) = .fault .unwrittenRead) ∧
    (∀ k, k < 20 → obufByte s k = none → step (s.queue (.rd (BitVec.ofNat 7 (0x20 + k)))) = .fault .unwrittenRead) ∧
    (∀ j : Fin 2, dinHi s j = none →
      step (s.queue (.rd (BitVec.ofNat 7 (0x40 + 2 * j.val)))) = .fault .unwrittenRead) ∧
    (∀ j : Fin 2, dinLo s j = none →
      step (s.queue (.rd (BitVec.ofNat 7 (0x41 + 2 * j.val)))) = .fault .unwrittenRead) ∧
    ∀ i : Instr, i.WellFormed → s.accepting = true → inputsWritten i s = false → exec i s = .fault .unwrittenRead

/-- R56: an illegal access takes ILLEGAL_ACCESS and changes nothing else; an illegal read returns 0x00. -/
def Obligations.IllegalAccessTakesItsFault : Prop :=
  ∀ (s : State) (a : HAddr),
    (unmappedAddr a = true → ∃ t, step (s.queue (.rd a)) = .next t ∧ raisedStatus s.status t.status 4 ∧
      { t with status := s.status } = { s with returned := 0x00 :: s.returned }) ∧
    (∀ v, (unmappedAddr a = true ∨ readOnlyAddr a = true) → ∃ t, step (s.queue (.wr a v)) = .next t ∧
      raisedStatus s.status t.status 4 ∧ sameButStatus s t)

/-- R53, R54: a host write of IBUF or of a half of a DIN word writes that byte and marks it written, and the other half,
every other byte and mark and every register stays, in every state of STATUS. -/
def Obligations.WriteChangesExactlyOneByte : Prop :=
  ∀ (s : State) (v : Byte),
    (∀ k, k < 32 → ∃ t, step (s.queue (.wr (BitVec.ofNat 7 k) v)) = .next t ∧ ibufByte t k = some v ∧
      (∀ a, a ≠ ibufBase + k → Memory.read t.mem a = Memory.read s.mem a) ∧ sameDin s t ∧ sameRegisters s t ∧
      sameHostSide s t) ∧
    (∀ j : Fin 2, ∃ t, step (s.queue (.wr (BitVec.ofNat 7 (0x40 + 2 * j.val)) v)) = .next t ∧ dinHi t j = some v ∧
      dinLo t j = dinLo s j ∧ loByte (dinReg t j).word = loByte (dinReg s j).word ∧
      (∀ k, k ≠ j → dinReg t k = dinReg s k) ∧ (∀ a, Memory.read t.mem a = Memory.read s.mem a) ∧
      sameRegisters s t ∧ sameHostSide s t) ∧
    ∀ j : Fin 2, ∃ t, step (s.queue (.wr (BitVec.ofNat 7 (0x41 + 2 * j.val)) v)) = .next t ∧ dinLo t j = some v ∧
      dinHi t j = dinHi s j ∧ hiByte (dinReg t j).word = hiByte (dinReg s j).word ∧
      (∀ k, k ≠ j → dinReg t k = dinReg s k) ∧ (∀ a, Memory.read t.mem a = Memory.read s.mem a) ∧
      sameRegisters s t ∧ sameHostSide s t

/-! ### Reset and the invariant -/

/-- R38: the state after reset. It leaves the bytes of IBUF, OBUF and DIN unspecified: the statement says that they are
unwritten, and nothing of their values. -/
def Obligations.ResetLeavesTheStatedValues : Prop :=
  State.reset.status = 0x00 ∧ State.reset.olen = 0x00 ∧ State.reset.crcout = 0x00 ∧ State.reset.infoCode = 0x0000 ∧
  State.reset.infoRsplen = 0x00 ∧ State.reset.infoNw = 0x00 ∧
  (∀ k, k < 32 → ibufByte State.reset k = none) ∧ (∀ k, k < 20 → obufByte State.reset k = none) ∧
  ∀ j, dinHi State.reset j = none ∧ dinLo State.reset j = none

/-- R170: reset works in every state, sets every register to its reset value and makes every byte unwritten, and is the
only way out of a fault. That the host's pending actions and what reads have returned stay (the first two clauses about
`t`, and `sameHostSide`) is no rule of the spec but the model's choice (DESIGN CHOICE, log entry 12), and so is the word
that an unwritten DIN holds in `State.reset` (log entry 19). -/
def Obligations.ResetIsTheOnlyWayOutOfAFault : Prop :=
  (∀ s : State, ∃ t, step (s.queue .reset) = .next t ∧
    t = { State.reset with pending := s.pending, returned := s.returned } ∧ t.status = 0 ∧ t.olen = 0 ∧
    t.crcout = 0 ∧ t.infoCode = 0 ∧ t.infoRsplen = 0 ∧ t.infoNw = 0 ∧ (∀ a, Memory.read t.mem a = none) ∧
    (∀ j, dinHi t j = none ∧ dinLo t j = none) ∧ sameHostSide s t) ∧
  ∀ s t : State, step s = .next t → s.accepting = false → t.accepting = true → ∃ rest, s.pending = .reset :: rest

/-- The state after reset meets the invariant. -/
def Obligations.ResetMeetsTheInvariant : Prop := State.reset.Inv

/-- Every step keeps the invariant: the byte store stays canonical, STATUS, OLEN and INFO_* stay legal, and OBUF[0 ..
OLEN-1] stays written. -/
def Obligations.StepKeepsTheInvariant : Prop := ∀ s t : State, s.Inv → step s = .next t → t.Inv

/-! ### The checksum -/

/-- R92: the reference vector, and the table form with the table as spec/95_test_vectors.md lists it. -/
def Obligations.ChecksumAgreesWithVectorAndTable : Prop :=
  checksum 0xBE 0xEF = 0x92 ∧ (∀ x : Byte, crcShifts 8 x = specT x) ∧
  ∀ a b : Byte, checksum a b = specT (specT (a ^^^ 0xFF) ^^^ b)

/-- R93: for a fixed high byte every checksum comes from exactly one low byte, and the same the other way round. -/
def Obligations.ChecksumIsOneToOneInEachByte : Prop :=
  (∀ a c : Byte, ∃ b, checksum a b = c ∧ ∀ b', checksum a b' = c → b' = b) ∧
  ∀ b c : Byte, ∃ a, checksum a b = c ∧ ∀ a', checksum a' b = c → a' = a

/-- R93: what `crc` writes and what it leaves. -/
def Obligations.CrcWritesTheChecksumOfDin0 : Prop :=
  ∀ (s : State) (hi lo : Byte), s.accepting = true → dinHi s 0 = some hi → dinLo s 0 = some lo →
    ∃ t, exec .crc s = .next t ∧ t.crcout = crc8 [hi, lo] ∧ completedStatus s.status t.status false ∧
      t.olen = s.olen ∧ sameInfo s t ∧ sameBytes s t ∧ sameHostSide s t

/-- R64, R93, R122: no request but `framed` with two words depends on DIN[1] (so neither `crc` nor `framed` with one
word does): giving it any content and marks before or after the request gives the same outcome. -/
def Obligations.OneWordRequestsIgnoreDin1 : Prop :=
  ∀ (s : State) (d : DataWord) (i : Instr), (∀ cmd, i ≠ .framed cmd 2) →
    exec i (setDin 1 d s) = mapNext (setDin 1 d) (exec i s)

/-- R95, R96: `validate` completes with CSERR = 1 exactly where the checksum byte of some complete group is not the
checksum of its data bytes, and leaves every other register and every byte. -/
def Obligations.ValidateReportsAnyFailingGroup : Prop :=
  ∀ (s : State) (len : BitVec 6) (b : Nat → Byte), s.accepting = true → len.toNat ≤ 32 →
    (∀ k, k < 3 * (len.toNat / 3) → ibufByte s k = some (b k)) →
    ∃ t m, exec (.validate len) s = .next t ∧ completedStatus s.status t.status m ∧
      (m = true ↔ ∃ g, g < len.toNat / 3 ∧ crc8 [b (3 * g), b (3 * g + 1)] ≠ b (3 * g + 2)) ∧
      t.olen = s.olen ∧ t.crcout = s.crcout ∧ sameInfo s t ∧ sameBytes s t ∧ sameHostSide s t

/-- R99: the three properties of every implementation. -/
def Obligations.ValidateAcceptsExactlyTheChecksum : Prop :=
  (∀ (s : State) (a b c : Byte), s.accepting = true → ibufByte s 0 = some a → ibufByte s 1 = some b →
    ibufByte s 2 = some c → ∃ t, exec (.validate 3) s = .next t ∧
      ((c = checksum a b → statusCserr t.status = false) ∧ (c ≠ checksum a b → statusCserr t.status = true))) ∧
  ∀ (s : State) (len : BitVec 6), s.accepting = true → len.toNat ≤ 2 →
    ∃ t, exec (.validate len) s = .next t ∧ statusCserr t.status = false

/-- R97, R129: the bytes of a trailing partial group are not read: writing one before or after `validate` or `strip`
gives the same outcome; buffers shorter than 3 bytes pass; 8 bytes are checked as 6 are. -/
def Obligations.TrailingPartialGroupIsNotRead : Prop :=
  (∀ (s : State) (len : BitVec 6) (k : Nat) (v : Byte), 3 * (len.toNat / 3) ≤ k → k < 32 →
    exec (.validate len) (poke (ibufBase + k) v s) = mapNext (poke (ibufBase + k) v) (exec (.validate len) s) ∧
    exec (.strip len) (poke (ibufBase + k) v s) = mapNext (poke (ibufBase + k) v) (exec (.strip len) s)) ∧
  (∀ (s : State) (len : BitVec 6), s.accepting = true → len.toNat < 3 →
    exec (.validate len) s = .next { s with status := statusCompleted s.status false }) ∧
  ∀ s : State, exec (.validate 8) s = exec (.validate 6) s

/-! ### The framer -/

/-- R126, R127: a `strip` whose groups all pass puts the two data bytes of every complete group into OBUF, and nothing
else changes but OLEN and STATUS. -/
def Obligations.StripKeepsTheDataBytesOfPassingGroups : Prop :=
  ∀ (s : State) (len : BitVec 6) (b : Nat → Byte), s.accepting = true → len.toNat ≤ 32 →
    (∀ k, k < 3 * (len.toNat / 3) → ibufByte s k = some (b k)) →
    (∀ g, g < len.toNat / 3 → crc8 [b (3 * g), b (3 * g + 1)] = b (3 * g + 2)) →
    ∃ t, exec (.strip len) s = .next t ∧ t.olen.toNat = 2 * (len.toNat / 3) ∧
      (∀ g, g < len.toNat / 3 →
        obufByte t (2 * g) = some (b (3 * g)) ∧ obufByte t (2 * g + 1) = some (b (3 * g + 1))) ∧
      completedStatus s.status t.status false ∧ t.crcout = s.crcout ∧ sameInfo s t ∧
      sameBytesButObufBelow (2 * (len.toNat / 3)) s t ∧ sameHostSide s t

/-- R128: on a mismatch `strip` sets OLEN to 0 and CSERR to 1 and writes no byte of OBUF. -/
def Obligations.StripOfFailingBufferWritesNoData : Prop :=
  ∀ (s : State) (len : BitVec 6) (b : Nat → Byte) (g : Nat), s.accepting = true → len.toNat ≤ 32 →
    (∀ k, k < 3 * (len.toNat / 3) → ibufByte s k = some (b k)) → g < len.toNat / 3 →
    crc8 [b (3 * g), b (3 * g + 1)] ≠ b (3 * g + 2) →
    ∃ t, exec (.strip len) s = .next t ∧ t.olen = 0 ∧ completedStatus s.status t.status true ∧
      t.crcout = s.crcout ∧ sameInfo s t ∧ sameBytes s t ∧ sameHostSide s t

/-- R127, R23: a `strip` after a `validate` of the same length finds the same result. -/
def Obligations.ValidateAndStripAgree : Prop :=
  ∀ (s t : State) (len : BitVec 6), len.toNat ≤ 32 → exec (.validate len) s = .next t →
    ∃ u, exec (.strip len) t = .next u ∧ statusCserr u.status = statusCserr t.status ∧
      exec (.strip len) s = .next u

/-- R121, R83 (F0), R125: the frame of a command alone. -/
def Obligations.FrameIsTheCommandCodeAlone : Prop :=
  ∀ (s : State) (cmd : BitVec 4) (e : CommandInfo), s.accepting = true → cmdTab cmd.toNat = some e →
    ∃ t, exec (.frame cmd) s = .next t ∧ t.olen = 2 ∧ obufByte t 0 = some (hiByte e.code) ∧
      obufByte t 1 = some (loByte e.code) ∧ completedStatus s.status t.status false ∧ t.crcout = s.crcout ∧
      sameInfo s t ∧ sameBytesButObufBelow 2 s t ∧ sameHostSide s t

/-- R122, R83 (F1, F2), R124, R125: the frame of any command with one or two data words, each followed by its own
checksum. -/
def Obligations.FramedAppendsChecksummedWords : Prop :=
  ∀ (s : State) (cmd : BitVec 4) (e : CommandInfo) (h0 l0 : Byte), s.accepting = true → cmdTab cmd.toNat = some e →
    dinHi s 0 = some h0 → dinLo s 0 = some l0 →
    (∃ t, exec (.framed cmd 1) s = .next t ∧ t.olen = 5 ∧ obufByte t 0 = some (hiByte e.code) ∧
      obufByte t 1 = some (loByte e.code) ∧ obufByte t 2 = some h0 ∧ obufByte t 3 = some l0 ∧
      obufByte t 4 = some (crc8 [h0, l0]) ∧ completedStatus s.status t.status false ∧ t.crcout = s.crcout ∧
      sameInfo s t ∧ sameBytesButObufBelow 5 s t ∧ sameHostSide s t) ∧
    ∀ h1 l1, dinHi s 1 = some h1 → dinLo s 1 = some l1 →
      ∃ t, exec (.framed cmd 2) s = .next t ∧ t.olen = 8 ∧ obufByte t 0 = some (hiByte e.code) ∧
        obufByte t 1 = some (loByte e.code) ∧ obufByte t 2 = some h0 ∧ obufByte t 3 = some l0 ∧
        obufByte t 4 = some (crc8 [h0, l0]) ∧ obufByte t 5 = some h1 ∧ obufByte t 6 = some l1 ∧
        obufByte t 7 = some (crc8 [h1, l1]) ∧ completedStatus s.status t.status false ∧ t.crcout = s.crcout ∧
        sameInfo s t ∧ sameBytesButObufBelow 8 s t ∧ sameHostSide s t

/-- R123: `framed` with a word count of 0 or 3 takes CONTRACT and writes nothing else. -/
def Obligations.OtherWordCountsViolateTheContract : Prop :=
  ∀ (s : State) (cmd : BitVec 4) (nw : BitVec 2), s.accepting = true → cmd.toNat ≤ 8 → (nw = 0 ∨ nw = 3) →
    ∃ t, exec (.framed cmd nw) s = .next t ∧ raisedStatus s.status t.status 3 ∧ sameButStatus s t

/-- The groups that `framed` builds from DIN, handed back through IBUF, pass `strip`, which gives the words back. -/
def Obligations.StripUndoesFramed : Prop :=
  ∀ (s t u : State) (cmd : BitVec 4) (nw : BitVec 2) (len : BitVec 6), (nw = 1 ∨ nw = 2) →
    len.toNat = 3 * nw.toNat → cmd.toNat ≤ 8 → exec (.framed cmd nw) s = .next t → u.accepting = true →
    (∀ k, k < 3 * nw.toNat → ibufByte u k = obufByte t (2 + k)) →
    ∃ v, exec (.strip len) u = .next v ∧ statusCserr v.status = false ∧ v.olen.toNat = 2 * nw.toNat ∧
      ∀ j : Fin 2, j.val < nw.toNat → obufByte v (2 * j.val) = dinHi s j ∧ obufByte v (2 * j.val + 1) = dinLo s j

/-! ### The command table -/

/-- R110: the nine rows of the command table, and no others. -/
def Obligations.CommandTableHasNineRows : Prop :=
  cmdTab 0 = some { code := 0x3682, nw := 0, rsplen := 9 } ∧ cmdTab 1 = some { code := 0x2032, nw := 0, rsplen := 3 } ∧
  cmdTab 2 = some { code := 0x2003, nw := 0, rsplen := 0 } ∧ cmdTab 3 = some { code := 0x2008, nw := 0, rsplen := 6 } ∧
  cmdTab 4 = some { code := 0x2050, nw := 0, rsplen := 6 } ∧ cmdTab 5 = some { code := 0x2015, nw := 0, rsplen := 6 } ∧
  cmdTab 6 = some { code := 0x201E, nw := 2, rsplen := 0 } ∧ cmdTab 7 = some { code := 0x2061, nw := 1, rsplen := 0 } ∧
  cmdTab 8 = some { code := 0x202F, nw := 0, rsplen := 3 } ∧ ∀ k, 9 ≤ k → cmdTab k = none

/-- R114: what `lookup` writes and what it leaves. -/
def Obligations.LookupWritesTheRowOfTheCommand : Prop :=
  ∀ (s : State) (cmd : BitVec 4) (e : CommandInfo), s.accepting = true → cmdTab cmd.toNat = some e →
    ∃ t, exec (.lookup cmd) s = .next t ∧ t.infoCode = e.code ∧ t.infoRsplen = e.rsplen ∧ t.infoNw = e.nw ∧
      completedStatus s.status t.status false ∧ t.olen = s.olen ∧ t.crcout = s.crcout ∧ sameBytes s t ∧
      sameHostSide s t

/-- R115: every request that takes CMD takes ILLEGAL_FIELD on an index from 9 to 15, and no frame starts with a code
that is not in the table. -/
def Obligations.CommandSetIsClosed : Prop :=
  (∀ (s : State) (cmd : BitVec 4) (i : Instr), s.accepting = true → 9 ≤ cmd.toNat →
    (i = .frame cmd ∨ (∃ nw, i = .framed cmd nw) ∨ i = .lookup cmd) →
    ∃ t, exec i s = .next t ∧ raisedStatus s.status t.status 2 ∧ sameButStatus s t) ∧
  ∀ (s t : State) (cmd : BitVec 4) (i : Instr), (i = .frame cmd ∨ ∃ nw, i = .framed cmd nw) →
    exec i s = .next t → t.accepting = true →
    ∃ k e, k < 9 ∧ cmdTab k = some e ∧ obufByte t 0 = some (hiByte e.code) ∧ obufByte t 1 = some (loByte e.code)

/-- R74, R76: `validate` and `strip` take ILLEGAL_FIELD on a LEN from 33 to 63, whatever IBUF holds. -/
def Obligations.LengthsAboveTheBufferTakeIllegalField : Prop :=
  ∀ (s : State) (len : BitVec 6), s.accepting = true → 33 ≤ len.toNat →
    (∃ t, exec (.validate len) s = .next t ∧ raisedStatus s.status t.status 2 ∧ sameButStatus s t) ∧
    ∃ t, exec (.strip len) s = .next t ∧ raisedStatus s.status t.status 2 ∧ sameButStatus s t

/-! ### Rules about every request -/

/-- R142: the fault action writes STATUS.FAULT and STATUS.FCAUSE, the first cause only, and nothing else; the values of
FCAUSE are those of R31. -/
def Obligations.FaultActionRecordsTheFirstCause : Prop :=
  (∀ (c : Cause) (s : State), sameButStatus s (raiseFault c s) ∧
    raisedStatus s.status (raiseFault c s).status (causeCode c)) ∧
  causeCode .illegalOp = 1 ∧ causeCode .illegalField = 2 ∧ causeCode .contract = 3 ∧ causeCode .illegalAccess = 4

/-- R30, R147: while STATUS.FAULT = 1 no step but reset changes FAULT or FCAUSE. -/
def Obligations.FirstCauseIsKeptUntilReset : Prop :=
  ∀ s t : State, s.accepting = false → step s = .next t → (∀ rest, s.pending ≠ .reset :: rest) →
    t.accepting = false ∧ statusFcause t.status = statusFcause s.status

/-- R28: every request that completes sets VALID, a request that faults leaves it, and only reset clears it. -/
def Obligations.ValidIsSetByEveryCompletedRequest : Prop :=
  (∀ (s t : State) (rq : RequestWord), step (s.queue (.issue rq)) = .next t →
    (t.accepting = true → statusValid t.status = true) ∧
    (t.accepting = false → statusValid t.status = statusValid s.status)) ∧
  ∀ s t : State, step s = .next t → statusValid s.status = true → statusValid t.status = false →
    ∃ rest, s.pending = .reset :: rest

/-- R29: CSERR after a completed request says whether it is a `validate` or `strip` that found a failing group; a
request that faults, whatever its word, leaves CSERR. -/
def Obligations.CserrDescribesTheLastCompletedRequest : Prop :=
  ∀ (s t : State) (rq : RequestWord), step (s.queue (.issue rq)) = .next t →
    (t.accepting = true → (statusCserr t.status = true ↔
      ∃ len, (decode rq = .ok (.validate len) ∨ decode rq = .ok (.strip len)) ∧ someGroupFails s len)) ∧
    (t.accepting = false → statusCserr t.status = statusCserr s.status)

/-- R22, R23, R21: no request writes IBUF or DIN, and none reaches the host's side. -/
def Obligations.NoRequestWritesItsInputs : Prop :=
  ∀ (s t : State) (i : Instr), exec i s = .next t → sameInputs s t ∧ sameHostSide s t

/-- R37: each completed request writes exactly the registers of its row; one that faults, whatever its word, writes
STATUS.FAULT and STATUS.FCAUSE only. -/
def Obligations.RequestWritesOnlyItsRow : Prop :=
  (∀ (s t : State) (rq : RequestWord), step (s.queue (.issue rq)) = .next t → t.accepting = false →
    sameButStatus s t ∧ statusValid t.status = statusValid s.status ∧
      statusCserr t.status = statusCserr s.status ∧ statusReserved t.status = statusReserved s.status) ∧
  ∀ (s t : State) (i : Instr), exec i s = .next t → t.accepting = true →
    sameInputs s t ∧ sameHostSide s t ∧ ∃ m, completedStatus s.status t.status m ∧
      match i with
      | .crc => m = false ∧ sameBytes s t ∧ t.olen = s.olen ∧ sameInfo s t
      | .validate len => (m = true ↔ someGroupFails s len) ∧ sameBytes s t ∧ t.olen = s.olen ∧
          t.crcout = s.crcout ∧ sameInfo s t
      | .strip len => (m = true ↔ someGroupFails s len) ∧ t.crcout = s.crcout ∧ sameInfo s t ∧
          (m = false → t.olen.toNat = 2 * (len.toNat / 3) ∧ sameBytesButObufBelow (2 * (len.toNat / 3)) s t) ∧
          (m = true → t.olen = 0 ∧ sameBytes s t)
      | .frame _ => m = false ∧ t.olen = 2 ∧ sameBytesButObufBelow 2 s t ∧ t.crcout = s.crcout ∧ sameInfo s t
      | .framed _ nw => m = false ∧ t.olen.toNat = 2 + 3 * nw.toNat ∧
          sameBytesButObufBelow (2 + 3 * nw.toNat) s t ∧ t.crcout = s.crcout ∧ sameInfo s t
      | .lookup _ => m = false ∧ sameBytes s t ∧ t.olen = s.olen ∧ t.crcout = s.crcout

/-- R173, R145: a request with legal operands whose input bytes have all been written completes in every state that
accepts requests. -/
def Obligations.LegalRequestWithWrittenInputsCompletes : Prop :=
  ∀ (i : Instr) (s : State), i.WellFormed → s.accepting = true → inputsWritten i s = true →
    ∃ t, exec i s = .next t ∧ t.accepting = true ∧ statusValid t.status = true

/-- R60: issuing a completed request again, with no write in between, changes nothing. -/
def Obligations.SameRequestTwiceIsOnce : Prop :=
  ∀ (s t : State) (i : Instr), exec i s = .next t → t.accepting = true → exec i t = .next t

/-! ### The host's pseudo-instructions, and several blocks -/

/-- R82: `wrw J, W` leaves the word W in DIN[J] and every other byte and register as it was. -/
def Obligations.WrwWritesTheDataWord : Prop :=
  ∀ (s : State) (j : Fin 2) (w : Word), ∃ t, Sys2Proof.core.run 2 { s with pending := wrw j w } = .next t ∧
    dinWord t j = some w ∧ (∀ k, k ≠ j → dinReg t k = dinReg s k) ∧
    (∀ a, Memory.read t.mem a = Memory.read s.mem a) ∧ sameRegisters s t ∧ t.pending = [] ∧ t.returned = s.returned

/-- R82: `load` leaves its bytes in IBUF from index 0 on, and every other byte and register as it was. -/
def Obligations.LoadFillsTheInputBuffer : Prop :=
  ∀ (s : State) (bs : List Byte) (acts : List HostAction), load bs = some acts →
    ∃ t, Sys2Proof.core.run bs.length { s with pending := acts } = .next t ∧
      (∀ k, k < bs.length → ibufByte t k = bs[k]?) ∧ sameDin s t ∧ sameRegisters s t ∧ t.pending = [] ∧ t.returned = s.returned ∧
      ∀ a, bs.length ≤ a → Memory.read t.mem a = Memory.read s.mem a

/-- R82: `send` is `frame`, or `framed` with the table's word count; `recv` is `strip` of the table's read length. -/
def Obligations.SendAndRecvExpandByTheTable : Prop :=
  ∀ c : Command, commandAt (commandIndex c).toNat = some c ∧
    ((commandInfo c).nw = 0 → send c = [.issue (encode (.frame (commandIndex c)))]) ∧
    (∀ nw : BitVec 2, nw ≠ 0 → nw.toNat = (commandInfo c).nw.toNat →
      send c = [.issue (encode (.framed (commandIndex c) nw))]) ∧
    (∀ len : BitVec 6, len ≠ 0 → len.toNat = (commandInfo c).rsplen.toNat →
      recv c = some [.issue (encode (.strip len))]) ∧
    ((commandInfo c).rsplen = 0 → recv c = none)

/-- R39: a step of one block is that block's own step, and leaves every other block as it was. -/
def Obligations.BlocksShareNoState : Prop :=
  ∀ (blocks : List State) (k : Nat) (s : State), blocks[k]? = some s →
    (∀ s', step s = .next s' → ∃ blocks', stepBlock blocks k = .next blocks' ∧ blocks'[k]? = some s' ∧
      ∀ j, j ≠ k → blocks'[j]? = blocks[j]?) ∧
    ∀ r, step s = .fault r → stepBlock blocks k = .fault r

/-! ### Unwritten bytes -/

/-- R35, R65: what an unwritten half of DIN holds is never seen. Two states that differ only there answer the same fault,
or next states that differ only there, on every step. So no claim rests on the word that the model gives DIN at reset
(DESIGN CHOICE, log entry 19). -/
def Obligations.UnwrittenDinIsNeverSeen : Prop :=
  ∀ s s' : State, sameButUnwrittenDin s s' →
    (∀ t, step s = .next t → ∃ t', step s' = .next t' ∧ sameButUnwrittenDin t t') ∧
    ∀ r, step s = .fault r → step s' = .fault r
end

