-- ==== Sys2Proof/Laws/Bits.lean ====
section
/-! SUPPORT. The fields of STATUS after each of its updates, the two bytes of a word, the fields of a request word. -/

namespace Sys2Proof.Machine

theorem completedStatus_fields : ∀ (st : Byte) (b : Bool),
    statusValid (statusCompleted st b) = true ∧ statusCserr (statusCompleted st b) = b ∧
    statusFault (statusCompleted st b) = statusFault st ∧ statusFcause (statusCompleted st b) = statusFcause st ∧
    statusReserved (statusCompleted st b) = statusReserved st := by decide

@[simp] theorem statusValid_completed (st : Byte) (b : Bool) : statusValid (statusCompleted st b) = true :=
  (completedStatus_fields st b).1
@[simp] theorem statusCserr_completed (st : Byte) (b : Bool) : statusCserr (statusCompleted st b) = b :=
  (completedStatus_fields st b).2.1
@[simp] theorem statusFault_completed (st : Byte) (b : Bool) :
    statusFault (statusCompleted st b) = statusFault st := (completedStatus_fields st b).2.2.1
@[simp] theorem statusFcause_completed (st : Byte) (b : Bool) :
    statusFcause (statusCompleted st b) = statusFcause st := (completedStatus_fields st b).2.2.2.1
@[simp] theorem statusReserved_completed (st : Byte) (b : Bool) :
    statusReserved (statusCompleted st b) = statusReserved st := (completedStatus_fields st b).2.2.2.2

theorem statusRaised_fields (st : Byte) (c : Cause) :
    statusFault (statusRaised st c) = true ∧
    statusFcause (statusRaised st c) = (if statusFault st then statusFcause st else causeCode c) ∧
    statusValid (statusRaised st c) = statusValid st ∧ statusCserr (statusRaised st c) = statusCserr st ∧
    statusReserved (statusRaised st c) = statusReserved st := by
  cases c <;> revert st <;> decide

@[simp] theorem statusFault_raised (st : Byte) (c : Cause) : statusFault (statusRaised st c) = true :=
  (statusRaised_fields st c).1
@[simp] theorem statusFcause_raised (st : Byte) (c : Cause) :
    statusFcause (statusRaised st c) = if statusFault st then statusFcause st else causeCode c :=
  (statusRaised_fields st c).2.1
@[simp] theorem statusValid_raised (st : Byte) (c : Cause) : statusValid (statusRaised st c) = statusValid st :=
  (statusRaised_fields st c).2.2.1
@[simp] theorem statusCserr_raised (st : Byte) (c : Cause) : statusCserr (statusRaised st c) = statusCserr st :=
  (statusRaised_fields st c).2.2.2.1
@[simp] theorem statusReserved_raised (st : Byte) (c : Cause) :
    statusReserved (statusRaised st c) = statusReserved st := (statusRaised_fields st c).2.2.2.2

/-- A second fault changes nothing (R30). -/
theorem statusRaised_of_fault {st : Byte} (c : Cause) (h : statusFault st = true) : statusRaised st c = st := by
  simp [statusRaised, h]

/-- Completing twice with one result is completing once. -/
theorem statusCompleted_idem : ∀ (st : Byte) (b : Bool),
    statusCompleted (statusCompleted st b) b = statusCompleted st b := by decide

/-- FCAUSE values 5 to 7 are never produced (R31). -/
theorem causeCode_range (c : Cause) : 1 ≤ (causeCode c).toNat ∧ (causeCode c).toNat ≤ 4 := by
  cases c <;> decide

@[simp] theorem hiByte_joinBytes (a b : Byte) : hiByte (joinBytes a b) = a := by
  apply BitVec.eq_of_getLsbD_eq
  intro i hi
  have := BitVec.getLsbD_append (x := a) (y := b) (i := 8 + i)
  simpa [hiByte, joinBytes, hi] using this

@[simp] theorem loByte_joinBytes (a b : Byte) : loByte (joinBytes a b) = b := by
  apply BitVec.eq_of_getLsbD_eq
  intro i hi
  have := BitVec.getLsbD_append (x := a) (y := b) (i := i)
  simpa [loByte, joinBytes, hi] using this

theorem joinBytes_hi_lo (w : Word) : joinBytes (hiByte w) (loByte w) = w := by
  apply BitVec.eq_of_getLsbD_eq
  intro i hi
  simp only [hiByte, loByte, joinBytes, BitVec.getLsbD_append, BitVec.getLsbD_extractLsb']
  split_ifs with h
  · simp [h]
  · rw [show 8 + (i - 8) = i by omega]; simp; omega

end Sys2Proof.Machine
end

