-- ==== Sys2Proof/Laws/Memory.lean ====
section
/-! SUPPORT. What the operations of the byte store do: reads after writes, runs of bytes, the canonical form. -/

namespace Sys2Proof.Machine

@[simp] theorem Memory.read_nil (a : Nat) : Memory.read [] a = none := rfl

theorem Memory.read_write (m : List Host.Cell) (a b : Nat) (v : Byte) :
    Memory.read (Memory.write m a v) b = if b = a then some v else Memory.read m b := by
  induction m with
  | nil => simp only [Memory.write, Memory.read, eq_comm]
  | cons c rest ih =>
    obtain ⟨k, w⟩ := c
    simp only [Memory.write]
    by_cases hb : b = a
    · subst hb
      split_ifs <;> simp_all [Memory.read, eq_comm]
    · rw [if_neg hb]
      split_ifs with h1 h2
      · simp [Memory.read, Ne.symm hb]
      · simp [Memory.read, ← h2, Ne.symm hb]
      · simp [Memory.read, ih, hb]

/-- A read after a write to the same place gives the value written. -/
@[simp] theorem Memory.read_write_same (m : List Host.Cell) (a : Nat) (v : Byte) :
    Memory.read (Memory.write m a v) a = some v := by simp [Memory.read_write]

/-- A write leaves every other place alone. -/
theorem Memory.read_write_other (m : List Host.Cell) {a b : Nat} (v : Byte) (h : b ≠ a) :
    Memory.read (Memory.write m a v) b = Memory.read m b := by simp [Memory.read_write, h]

/-- A second write to the same place replaces the first. -/
theorem Memory.write_write_same (m : List Host.Cell) (a : Nat) (v w : Byte) :
    Memory.write (Memory.write m a v) a w = Memory.write m a w := by
  induction m with
  | nil => simp [Memory.write]
  | cons c rest ih =>
    obtain ⟨k, u⟩ := c
    simp only [Memory.write]
    split_ifs <;> simp_all [Memory.write]

/-- Writes to two different places may be done in either order. -/
theorem Memory.write_comm (m : List Host.Cell) {a b : Nat} (v w : Byte) (h : a ≠ b) :
    Memory.write (Memory.write m a v) b w = Memory.write (Memory.write m b w) a v := by
  induction m with
  | nil =>
    simp only [Memory.write]
    split_ifs <;> first | rfl | omega
  | cons c rest ih =>
    obtain ⟨k, u⟩ := c
    rcases Nat.lt_trichotomy a k with hak | hak | hak <;> rcases Nat.lt_trichotomy b k with hbk | hbk | hbk <;>
      rcases Nat.lt_trichotomy a b with hab | hab | hab <;> first | omega | skip
    all_goals simp [Memory.write, Nat.ne_of_gt, Nat.not_lt_of_gt, *]

/-! ### Runs of bytes -/

theorem Memory.read_writeBytes (m : List Host.Cell) (a : Nat) (bs : List Byte) (b : Nat) :
    Memory.read (Memory.writeBytes m a bs) b =
      if a ≤ b ∧ b < a + bs.length then bs[b - a]? else Memory.read m b := by
  induction bs generalizing m a with
  | nil => simp [Memory.writeBytes]
  | cons v bs ih =>
    simp only [Memory.writeBytes, ih, Memory.read_write, List.length_cons]
    by_cases h1 : b = a
    · subst h1; simp
    · by_cases h2 : a + 1 ≤ b ∧ b < a + 1 + bs.length
      · have : b - a = (b - (a + 1)) + 1 := by omega
        rw [if_pos h2, if_pos (by omega), this, List.getElem?_cons_succ]
      · rw [if_neg h2, if_neg h1, if_neg (by omega)]

/-- A byte outside the run is as before. -/
theorem Memory.read_writeBytes_outside (m : List Host.Cell) (a : Nat) (bs : List Byte) {b : Nat}
    (h : b < a ∨ a + bs.length ≤ b) : Memory.read (Memory.writeBytes m a bs) b = Memory.read m b := by
  rw [Memory.read_writeBytes, if_neg (by omega)]

/-- A byte inside the run is the byte written. -/
theorem Memory.read_writeBytes_inside (m : List Host.Cell) (a : Nat) (bs : List Byte) {k : Nat} (h : k < bs.length) :
    Memory.read (Memory.writeBytes m a bs) (a + k) = some bs[k] := by
  rw [Memory.read_writeBytes, if_pos (by omega), Nat.add_sub_cancel_left, List.getElem?_eq_getElem h]

theorem Memory.write_writeBytes_comm (m : List Host.Cell) (a : Nat) (bs : List Byte) {b : Nat} (v : Byte)
    (h : b < a ∨ a + bs.length ≤ b) :
    Memory.write (Memory.writeBytes m a bs) b v = Memory.writeBytes (Memory.write m b v) a bs := by
  induction bs generalizing m a with
  | nil => rfl
  | cons w bs ih =>
    simp only [List.length_cons] at h
    simp only [Memory.writeBytes]
    rw [ih _ (a + 1) (by omega), Memory.write_comm _ w v (by omega)]

/-- Writing the same run twice is writing it once. -/
theorem Memory.writeBytes_idem (m : List Host.Cell) (a : Nat) (bs : List Byte) :
    Memory.writeBytes (Memory.writeBytes m a bs) a bs = Memory.writeBytes m a bs := by
  induction bs generalizing m a with
  | nil => rfl
  | cons w bs ih =>
    simp only [Memory.writeBytes]
    rw [Memory.write_writeBytes_comm _ (a + 1) bs w (by omega), Memory.write_write_same, ih]

theorem Memory.readBytes_eq_some (m : List Host.Cell) (a n : Nat) (bs : List Byte) :
    Memory.readBytes m a n = some bs ↔ bs.length = n ∧ ∀ k, k < n → Memory.read m (a + k) = bs[k]? := by
  induction n generalizing a bs with
  | zero => simp [Memory.readBytes, eq_comm (a := [])]
  | succ n ih =>
    simp only [Memory.readBytes]
    constructor
    · intro h
      split at h
      · rename_i b bs' hb hbs
        obtain rfl := Option.some.inj h
        obtain ⟨hl, hk⟩ := (ih _ _).1 hbs
        refine ⟨by simp [hl], fun k hk' => ?_⟩
        cases k with
        | zero => simpa using hb
        | succ k => rw [List.getElem?_cons_succ, ← hk k (by omega)]; congr 1; omega
      · cases h
    · rintro ⟨hl, hk⟩
      cases bs with
      | nil => simp at hl
      | cons b bs =>
        have h0 := hk 0 (by omega)
        have h1 : Memory.readBytes m (a + 1) n = some bs :=
          (ih _ _).2 ⟨by simpa using hl, fun k hk' => by
            have := hk (k + 1) (by omega)
            rw [List.getElem?_cons_succ] at this
            rw [← this]; congr 1; omega⟩
        simp only [Nat.add_zero, List.getElem?_cons_zero] at h0
        rw [h0, h1]

theorem Memory.readBytes_eq_none (m : List Host.Cell) (a n : Nat) :
    Memory.readBytes m a n = none ↔ ∃ k, k < n ∧ Memory.read m (a + k) = none := by
  induction n generalizing a with
  | zero => simp [Memory.readBytes]
  | succ n ih =>
    simp only [Memory.readBytes]
    constructor
    · intro h
      split at h
      · cases h
      · rename_i hno
        cases h0 : Memory.read m a with
        | none => exact ⟨0, by omega, h0⟩
        | some b =>
          cases h1 : Memory.readBytes m (a + 1) n with
          | none =>
            obtain ⟨k, hk, hr⟩ := (ih _).1 h1
            exact ⟨k + 1, by omega, by rw [← hr]; congr 1; omega⟩
          | some bs => exact absurd h1 (hno b bs h0)
    · rintro ⟨k, hk, hr⟩
      cases k with
      | zero => rw [Nat.add_zero] at hr; rw [hr]
      | succ k =>
        have : Memory.readBytes m (a + 1) n = none := (ih _).2 ⟨k, by omega, by rw [← hr]; congr 1; omega⟩
        rw [this]; split <;> simp_all

/-- Bytes that all are `b 0, b 1, …` are read as the list of them. -/
theorem Memory.readBytes_of_forall (m : List Host.Cell) (a n : Nat) (b : Nat → Byte)
    (h : ∀ k, k < n → Memory.read m (a + k) = some (b k)) :
    Memory.readBytes m a n = some ((List.range n).map b) :=
  (Memory.readBytes_eq_some _ _ _ _).2 ⟨by simp, fun k hk => by simp [h k hk, hk]⟩

/-! ### The canonical form -/

theorem Memory.rising_cons (c : Host.Cell) (m : List Host.Cell) :
    Memory.rising (c :: m) = true ↔ (∀ d ∈ m.head?, c.1 < d.1) ∧ Memory.rising m = true := by
  cases m with
  | nil => simp [Memory.rising]
  | cons d rest => simp [Memory.rising]

theorem Memory.head_write (m : List Host.Cell) (a : Nat) (v : Byte) :
    ∀ d ∈ (Memory.write m a v).head?, d.1 = a ∨ (d ∈ m.head? ∧ d.1 < a) := by
  cases m with
  | nil => simp [Memory.write]
  | cons c rest =>
    obtain ⟨k, w⟩ := c
    simp only [Memory.write]
    split_ifs
    · simp
    · simp
    · simp; omega

theorem Memory.rising_write (m : List Host.Cell) (a : Nat) (v : Byte) (h : Memory.rising m = true) :
    Memory.rising (Memory.write m a v) = true := by
  induction m with
  | nil => rfl
  | cons c rest ih =>
    obtain ⟨k, w⟩ := c
    obtain ⟨hh, hr⟩ := (Memory.rising_cons _ _).1 h
    simp only [Memory.write]
    split_ifs with h1 h2
    · simpa [Memory.rising, h1] using h
    · subst h2
      exact (Memory.rising_cons _ _).2 ⟨hh, hr⟩
    · refine (Memory.rising_cons _ _).2 ⟨fun d hd => ?_, ih hr⟩
      rcases Memory.head_write rest a v d hd with h3 | ⟨h3, -⟩
      · simp only [h3]; omega
      · exact hh d h3

theorem Memory.all_write (m : List Host.Cell) (a : Nat) (v : Byte) (p : Nat → Bool) (ha : p a = true)
    (h : m.all (fun c => p c.1) = true) : (Memory.write m a v).all (fun c => p c.1) = true := by
  induction m with
  | nil => simp [Memory.write, ha]
  | cons c rest ih =>
    obtain ⟨k, w⟩ := c
    simp only [List.all_cons, Bool.and_eq_true] at h
    simp only [Memory.write]
    split_ifs <;> simp only [List.all_cons, Bool.and_eq_true, ha, ih h.2, h.1, h.2, and_self]

/-- The empty byte store is in canonical form. -/
@[simp] theorem Memory.wf_nil : Memory.wf [] = true := rfl

/-- The byte store after reset is in canonical form. -/
@[simp] theorem Memory.wf_reset : Memory.wf State.reset.mem = true := rfl

/-- A write of a byte of IBUF or OBUF keeps the canonical form. -/
theorem Memory.wf_write (m : List Host.Cell) (a : Nat) (v : Byte) (ha : isBufferAddr a = true)
    (h : Memory.wf m = true) : Memory.wf (Memory.write m a v) = true := by
  simp only [Memory.wf, Bool.and_eq_true] at h ⊢
  exact ⟨Memory.rising_write m a v h.1, Memory.all_write m a v _ ha h.2⟩

/-- A run of writes keeps the canonical form. -/
theorem Memory.wf_writeBytes (m : List Host.Cell) (a : Nat) (bs : List Byte)
    (ha : ∀ k, k < bs.length → isBufferAddr (a + k) = true) (h : Memory.wf m = true) :
    Memory.wf (Memory.writeBytes m a bs) = true := by
  induction bs generalizing m a with
  | nil => exact h
  | cons b bs ih =>
    refine ih _ _ (fun k hk => ?_) (Memory.wf_write m a b (by simpa using ha 0 (by simp)) h)
    have := ha (k + 1) (by simpa using hk)
    rwa [show a + (k + 1) = a + 1 + k by omega] at this

/-- The addresses of IBUF and OBUF (R51), as numbers. -/
theorem isBufferAddr_iff (a : Nat) : isBufferAddr a = true ↔ a < 0x34 := by
  rw [isBufferAddr, decide_eq_true_eq]; exact Iff.rfl

/-- A byte of OBUF is in the byte store's range. -/
theorem isBufferAddr_obuf {k : Nat} (h : k < Config.obufCap) : isBufferAddr (obufBase + k) = true := by
  simp [isBufferAddr, obufBase, Nat.add_lt_add_left h]

end Sys2Proof.Machine
end

