-- ==== Sys2Proof/Laws/Ops.lean ====
section
/-! SUPPORT. What each shared operation can answer, and the lists that the requests build. -/

namespace Sys2Proof.Machine

/-! ### Acceptance, inputs, operand ranges -/

/-- Two next states are equal; the new state is written on the left. -/
theorem next_inj {s t : State} : (Host.Outcome.next s : Host.Outcome State Fault Refusal) = .next t ↔ t = s := by
  simp [eq_comm]

theorem accept_of_noFault {s : State} (h : statusFault s.status = false) (k : Host.Outcome State Fault Refusal) :
    accept s k = k := by simp [accept, h]

theorem accept_of_fault {s : State} (h : statusFault s.status = true) (k : Host.Outcome State Fault Refusal) :
    accept s k = .fault .requestStuck := by simp [accept, h]

/-- A next state comes from an accepted request only. -/
theorem accept_next {s t : State} {k : Host.Outcome State Fault Refusal} :
    accept s k = .next t ↔ statusFault s.status = false ∧ k = .next t := by
  unfold accept; split <;> simp_all

/-- A next state comes from inputs that are all written only. -/
theorem withInput_next {α : Type} {o : Option α} {k : α → Host.Outcome State Fault Refusal} {t : State} :
    withInput o k = .next t ↔ ∃ v, o = some v ∧ k v = .next t := by
  cases o <;> simp [withInput]

theorem withLen_next {len : BitVec 6} {s t : State} {k : Host.Outcome State Fault Refusal} :
    withLen len s k = .next t ↔
      (len.toNat ≤ Config.ibufCap ∧ k = .next t) ∨ (Config.ibufCap < len.toNat ∧ t = raiseFault .illegalField s) := by
  unfold withLen
  split
  · simp_all
  · rename_i h
    simp only [Host.Outcome.next.injEq, h, false_and, false_or]
    exact ⟨fun e => ⟨by omega, e.symm⟩, fun e => e.2.symm⟩

theorem withCommand_next {cmd : BitVec 4} {s t : State} {k : CommandInfo → Host.Outcome State Fault Refusal} :
    withCommand cmd s k = .next t ↔
      (∃ e, cmdTab cmd.toNat = some e ∧ k e = .next t) ∨
        (cmdTab cmd.toNat = none ∧ t = raiseFault .illegalField s) := by
  unfold withCommand
  cases cmdTab cmd.toNat <;> simp [eq_comm]

/-- The table has a row exactly for the indices 0 to 8 (R110, R115). -/
theorem cmdTab_isSome (k : Nat) : (cmdTab k).isSome = true ↔ k < Config.ncmd := by
  match k with
  | 0 | 1 | 2 | 3 | 4 | 5 | 6 | 7 | 8 => simp [cmdTab, commandAt, Config.ncmd]
  | k + 9 => simp [cmdTab, commandAt, Config.ncmd]

theorem cmdTab_of_lt {k : Nat} (h : k < Config.ncmd) : ∃ e, cmdTab k = some e :=
  Option.isSome_iff_exists.1 ((cmdTab_isSome k).2 h)

theorem cmdTab_of_ge {k : Nat} (h : Config.ncmd ≤ k) : cmdTab k = none := by
  cases hk : cmdTab k with
  | none => rfl
  | some e =>
    have := (cmdTab_isSome k).1 (by simp [hk])
    omega

/-! ### The inputs of the requests -/

theorem dinHi_eq_some {s : State} {j : Fin 2} {v : Byte} :
    dinHi s j = some v ↔ (dinReg s j).hiWritten = true ∧ hiByte (dinReg s j).word = v := by simp [dinHi]

theorem dinLo_eq_some {s : State} {j : Fin 2} {v : Byte} :
    dinLo s j = some v ↔ (dinReg s j).loWritten = true ∧ loByte (dinReg s j).word = v := by simp [dinLo]

theorem dinHi_eq_none {s : State} {j : Fin 2} : dinHi s j = none ↔ (dinReg s j).hiWritten = false := by simp [dinHi]

theorem dinLo_eq_none {s : State} {j : Fin 2} : dinLo s j = none ↔ (dinReg s j).loWritten = false := by simp [dinLo]

/-- A word is read exactly where both its halves are. -/
theorem dinWord_eq_some {s : State} {j : Fin 2} {w : Word} :
    dinWord s j = some w ↔ dinHi s j = some (hiByte w) ∧ dinLo s j = some (loByte w) := by
  have hw : (dinReg s j).word = w ↔ hiByte (dinReg s j).word = hiByte w ∧ loByte (dinReg s j).word = loByte w :=
    ⟨fun e => by simp [e], fun e => by rw [← joinBytes_hi_lo (dinReg s j).word, e.1, e.2, joinBytes_hi_lo]⟩
  simp only [dinHi_eq_some, dinLo_eq_some, dinWord, dinWritten, Option.ite_none_right_eq_some, Bool.and_eq_true,
    Option.some.injEq, hw, and_assoc]
  tauto

theorem dinWord_of_bytes {s : State} {j : Fin 2} {a b : Byte} (ha : dinHi s j = some a) (hb : dinLo s j = some b) :
    dinWord s j = some (joinBytes a b) := dinWord_eq_some.2 (by simp [ha, hb])

theorem dinWord_eq_none {s : State} {j : Fin 2} : dinWord s j = none ↔ dinWritten s j = false := by simp [dinWord]

theorem dinWords_one (s : State) : dinWords s 1 = (dinWord s 0).map fun w => [w] := rfl

theorem dinWords_two (s : State) :
    dinWords s 2 = (dinWord s 0).bind fun w => (dinWord s 1).map fun w' => [w, w'] := rfl

theorem dinWords_length {s : State} {n : Nat} {ws : List Word} (hn : n ≤ 2) (h : dinWords s n = some ws) :
    ws.length = n := by
  match n, hn with
  | 0, _ => simp [dinWords] at h; simp [← h]
  | 1, _ => rw [dinWords_one] at h; obtain ⟨w, -, rfl⟩ := Option.map_eq_some_iff.1 h; rfl
  | 2, _ =>
    rw [dinWords_two] at h
    obtain ⟨w, -, h⟩ := Option.bind_eq_some_iff.1 h
    obtain ⟨w', -, rfl⟩ := Option.map_eq_some_iff.1 h
    rfl

theorem ibufGroups_length {s : State} {len : BitVec 6} {b : List Byte} (h : ibufGroups s len = some b) :
    b.length = 3 * (len.toNat / 3) := ((Memory.readBytes_eq_some _ _ _ _).1 h).1

/-! ### The lists that the requests build -/

@[simp] theorem wordGroup_length (w : Word) : (wordGroup w).length = 3 := rfl

/-- A frame has 2 + 3 * NW bytes (R83, R120). -/
@[simp] theorem frameBytes_length (c : Word) (ws : List Word) : (frameBytes c ws).length = 2 + 3 * ws.length := by
  have : (ws.flatMap wordGroup).length = 3 * ws.length := by
    induction ws with
    | nil => rfl
    | cons w ws ih => simp [ih]; omega
  simp only [frameBytes, List.length_cons, this]; omega

/-- R126: stripping G groups leaves 2 * G bytes. -/
theorem stripBytes_length {G : Nat} {bs : List Byte} (h : bs.length = 3 * G) : (stripBytes bs).length = 2 * G := by
  induction G generalizing bs with
  | zero => simp at h; subst h; rfl
  | succ G ih =>
    match bs, h with
    | a :: b :: c :: rest, h =>
      simp only [List.length_cons] at h
      simp [stripBytes, ih (bs := rest) (by omega), Nat.mul_succ]
    | [], h => simp at h
    | [_], h => simp at h; omega
    | [_, _], h => simp at h; omega

/-- R126 by index: bytes `2g` and `2g + 1` of the stripped data are the data bytes of group `g`. -/
theorem stripBytes_getElem? {bs : List Byte} {g : Nat} (h : 3 * g + 2 < bs.length) :
    (stripBytes bs)[2 * g]? = bs[3 * g]? ∧ (stripBytes bs)[2 * g + 1]? = bs[3 * g + 1]? := by
  induction g generalizing bs with
  | zero =>
    match bs, h with
    | a :: b :: c :: rest, _ => simp [stripBytes]
  | succ g ih =>
    match bs, h with
    | a :: b :: c :: rest, h =>
      have := ih (bs := rest) (by simp only [List.length_cons] at h; omega)
      simpa [stripBytes, Nat.mul_succ, Nat.add_right_comm _ 2 1] using this

/-- R94, R95 by index: the groups pass exactly where each complete group's checksum byte is the checksum of its two
data bytes. -/
theorem groupsOk_iff (b : Nat → Byte) (G : Nat) :
    groupsOk ((List.range (3 * G)).map b) = true ↔ ∀ g, g < G → checksum (b (3 * g)) (b (3 * g + 1)) = b (3 * g + 2) := by
  induction G generalizing b with
  | zero => simp [groupsOk]
  | succ G ih =>
    have hr : (List.range (3 * (G + 1))).map b =
        b 0 :: b 1 :: b 2 :: (List.range (3 * G)).map (fun k => b (k + 3)) := by
      rw [show 3 * (G + 1) = 3 * G + 1 + 1 + 1 by omega]
      simp [List.range_succ_eq_map, Function.comp_def]
    rw [hr]
    simp only [groupsOk, Bool.and_eq_true, beq_iff_eq, ih]
    constructor
    · rintro ⟨h0, hg⟩ g hlt
      cases g with
      | zero => exact h0
      | succ g => exact hg g (by omega)
    · exact fun h => ⟨h 0 (by omega), fun g hg => h (g + 1) (by omega)⟩

/-! ### The host register map -/

/-- Everything a host write of a register can store (R53, R54). -/
theorem hostStore_eq_some {v : Byte} {s t : State} {r : HostReg} : hostStore v s r = some t ↔
    (∃ i, r = .ibuf i ∧ t = { s with mem := Memory.write s.mem (ibufBase + i) v }) ∨
      (∃ j, r = .dinHi j ∧ t = setDin j ((dinReg s j).writeHi v) s) ∨
      ∃ j, r = .dinLo j ∧ t = setDin j ((dinReg s j).writeLo v) s := by
  cases r <;> simp [hostStore, eq_comm (b := t)]

/-- An address that names a byte of IBUF is its index (R51). -/
theorem hostReg_ibuf {a : HAddr} {i : Nat} (h : hostReg a = some (.ibuf i)) : i = a.toNat ∧ i < Config.ibufCap := by
  have : ∀ a : HAddr, hostReg a = if a.toNat < 32 then some (.ibuf a.toNat) else hostReg a := by decide
  have hn : ∀ a : HAddr, ¬a.toNat < 32 → (hostReg a).all (fun r => match r with | .ibuf _ => false | _ => true) = true := by
    decide
  rw [this] at h
  split at h
  · cases h; exact ⟨rfl, ‹_›⟩
  · have := hn a ‹_›
    simp [h] at this

end Sys2Proof.Machine
end

