-- ==== Sys2Proof/Laws/State.lean ====
section
/-! SUPPORT. The fields of each update of the state, one lemma per field per update. -/

namespace Sys2Proof.Machine

@[simp] theorem complete_mem (b : Bool) (s : State) : (complete b s).mem = s.mem := rfl
@[simp] theorem complete_din0 (b : Bool) (s : State) : (complete b s).din0 = s.din0 := rfl
@[simp] theorem complete_din1 (b : Bool) (s : State) : (complete b s).din1 = s.din1 := rfl
@[simp] theorem complete_olen (b : Bool) (s : State) : (complete b s).olen = s.olen := rfl
@[simp] theorem complete_crcout (b : Bool) (s : State) : (complete b s).crcout = s.crcout := rfl
@[simp] theorem complete_status (b : Bool) (s : State) : (complete b s).status = statusCompleted s.status b := rfl
@[simp] theorem complete_infoCode (b : Bool) (s : State) : (complete b s).infoCode = s.infoCode := rfl
@[simp] theorem complete_infoRsplen (b : Bool) (s : State) : (complete b s).infoRsplen = s.infoRsplen := rfl
@[simp] theorem complete_infoNw (b : Bool) (s : State) : (complete b s).infoNw = s.infoNw := rfl
@[simp] theorem complete_pending (b : Bool) (s : State) : (complete b s).pending = s.pending := rfl
@[simp] theorem complete_returned (b : Bool) (s : State) : (complete b s).returned = s.returned := rfl

@[simp] theorem putResult_mem (bs : List Byte) (s : State) : (putResult bs s).mem = Memory.writeBytes s.mem obufBase bs := rfl
@[simp] theorem putResult_din0 (bs : List Byte) (s : State) : (putResult bs s).din0 = s.din0 := rfl
@[simp] theorem putResult_din1 (bs : List Byte) (s : State) : (putResult bs s).din1 = s.din1 := rfl
@[simp] theorem putResult_olen (bs : List Byte) (s : State) : (putResult bs s).olen = BitVec.ofNat 8 bs.length := rfl
@[simp] theorem putResult_crcout (bs : List Byte) (s : State) : (putResult bs s).crcout = s.crcout := rfl
@[simp] theorem putResult_status (bs : List Byte) (s : State) : (putResult bs s).status = s.status := rfl
@[simp] theorem putResult_infoCode (bs : List Byte) (s : State) : (putResult bs s).infoCode = s.infoCode := rfl
@[simp] theorem putResult_infoRsplen (bs : List Byte) (s : State) : (putResult bs s).infoRsplen = s.infoRsplen := rfl
@[simp] theorem putResult_infoNw (bs : List Byte) (s : State) : (putResult bs s).infoNw = s.infoNw := rfl
@[simp] theorem putResult_pending (bs : List Byte) (s : State) : (putResult bs s).pending = s.pending := rfl
@[simp] theorem putResult_returned (bs : List Byte) (s : State) : (putResult bs s).returned = s.returned := rfl

@[simp] theorem raiseFault_mem (c : Cause) (s : State) : (raiseFault c s).mem = s.mem := rfl
@[simp] theorem raiseFault_din0 (c : Cause) (s : State) : (raiseFault c s).din0 = s.din0 := rfl
@[simp] theorem raiseFault_din1 (c : Cause) (s : State) : (raiseFault c s).din1 = s.din1 := rfl
@[simp] theorem raiseFault_olen (c : Cause) (s : State) : (raiseFault c s).olen = s.olen := rfl
@[simp] theorem raiseFault_crcout (c : Cause) (s : State) : (raiseFault c s).crcout = s.crcout := rfl
@[simp] theorem raiseFault_status (c : Cause) (s : State) : (raiseFault c s).status = statusRaised s.status c := rfl
@[simp] theorem raiseFault_infoCode (c : Cause) (s : State) : (raiseFault c s).infoCode = s.infoCode := rfl
@[simp] theorem raiseFault_infoRsplen (c : Cause) (s : State) : (raiseFault c s).infoRsplen = s.infoRsplen := rfl
@[simp] theorem raiseFault_infoNw (c : Cause) (s : State) : (raiseFault c s).infoNw = s.infoNw := rfl
@[simp] theorem raiseFault_pending (c : Cause) (s : State) : (raiseFault c s).pending = s.pending := rfl
@[simp] theorem raiseFault_returned (c : Cause) (s : State) : (raiseFault c s).returned = s.returned := rfl

@[simp] theorem returnByte_mem (v : Byte) (s : State) : (returnByte v s).mem = s.mem := rfl
@[simp] theorem returnByte_din0 (v : Byte) (s : State) : (returnByte v s).din0 = s.din0 := rfl
@[simp] theorem returnByte_din1 (v : Byte) (s : State) : (returnByte v s).din1 = s.din1 := rfl
@[simp] theorem returnByte_olen (v : Byte) (s : State) : (returnByte v s).olen = s.olen := rfl
@[simp] theorem returnByte_crcout (v : Byte) (s : State) : (returnByte v s).crcout = s.crcout := rfl
@[simp] theorem returnByte_status (v : Byte) (s : State) : (returnByte v s).status = s.status := rfl
@[simp] theorem returnByte_infoCode (v : Byte) (s : State) : (returnByte v s).infoCode = s.infoCode := rfl
@[simp] theorem returnByte_infoRsplen (v : Byte) (s : State) : (returnByte v s).infoRsplen = s.infoRsplen := rfl
@[simp] theorem returnByte_infoNw (v : Byte) (s : State) : (returnByte v s).infoNw = s.infoNw := rfl
@[simp] theorem returnByte_pending (v : Byte) (s : State) : (returnByte v s).pending = s.pending := rfl
@[simp] theorem returnByte_returned (v : Byte) (s : State) : (returnByte v s).returned = v :: s.returned := rfl

@[simp] theorem queue_mem (s : State) (act : HostAction) : (s.queue act).mem = s.mem := rfl
@[simp] theorem queue_din0 (s : State) (act : HostAction) : (s.queue act).din0 = s.din0 := rfl
@[simp] theorem queue_din1 (s : State) (act : HostAction) : (s.queue act).din1 = s.din1 := rfl
@[simp] theorem queue_olen (s : State) (act : HostAction) : (s.queue act).olen = s.olen := rfl
@[simp] theorem queue_crcout (s : State) (act : HostAction) : (s.queue act).crcout = s.crcout := rfl
@[simp] theorem queue_status (s : State) (act : HostAction) : (s.queue act).status = s.status := rfl
@[simp] theorem queue_infoCode (s : State) (act : HostAction) : (s.queue act).infoCode = s.infoCode := rfl
@[simp] theorem queue_infoRsplen (s : State) (act : HostAction) : (s.queue act).infoRsplen = s.infoRsplen := rfl
@[simp] theorem queue_infoNw (s : State) (act : HostAction) : (s.queue act).infoNw = s.infoNw := rfl
@[simp] theorem queue_pending (s : State) (act : HostAction) : (s.queue act).pending = act :: s.pending := rfl
@[simp] theorem queue_returned (s : State) (act : HostAction) : (s.queue act).returned = s.returned := rfl

@[simp] theorem hostReset_mem (s : State) : (hostReset s).mem = [] := rfl
@[simp] theorem hostReset_din0 (s : State) : (hostReset s).din0 = DataWord.reset := rfl
@[simp] theorem hostReset_din1 (s : State) : (hostReset s).din1 = DataWord.reset := rfl
@[simp] theorem hostReset_olen (s : State) : (hostReset s).olen = 0 := rfl
@[simp] theorem hostReset_crcout (s : State) : (hostReset s).crcout = 0 := rfl
@[simp] theorem hostReset_status (s : State) : (hostReset s).status = 0 := rfl
@[simp] theorem hostReset_infoCode (s : State) : (hostReset s).infoCode = 0 := rfl
@[simp] theorem hostReset_infoRsplen (s : State) : (hostReset s).infoRsplen = 0 := rfl
@[simp] theorem hostReset_infoNw (s : State) : (hostReset s).infoNw = 0 := rfl
@[simp] theorem hostReset_pending (s : State) : (hostReset s).pending = s.pending := rfl
@[simp] theorem hostReset_returned (s : State) : (hostReset s).returned = s.returned := rfl

/-! ### The data-word registers -/

@[simp] theorem dinReg_setDin_same (j : Fin 2) (d : DataWord) (s : State) : dinReg (setDin j d s) j = d := by
  fin_cases j <;> rfl
theorem dinReg_setDin_other {j k : Fin 2} (d : DataWord) (s : State) (h : k ≠ j) :
    dinReg (setDin j d s) k = dinReg s k := by
  fin_cases j <;> fin_cases k <;> first | rfl | exact absurd rfl h
@[simp] theorem setDin_mem (j : Fin 2) (d : DataWord) (s : State) : (setDin j d s).mem = s.mem := by
  fin_cases j <;> rfl
@[simp] theorem setDin_olen (j : Fin 2) (d : DataWord) (s : State) : (setDin j d s).olen = s.olen := by
  fin_cases j <;> rfl
@[simp] theorem setDin_crcout (j : Fin 2) (d : DataWord) (s : State) : (setDin j d s).crcout = s.crcout := by
  fin_cases j <;> rfl
@[simp] theorem setDin_status (j : Fin 2) (d : DataWord) (s : State) : (setDin j d s).status = s.status := by
  fin_cases j <;> rfl
@[simp] theorem setDin_infoCode (j : Fin 2) (d : DataWord) (s : State) : (setDin j d s).infoCode = s.infoCode := by
  fin_cases j <;> rfl
@[simp] theorem setDin_infoRsplen (j : Fin 2) (d : DataWord) (s : State) : (setDin j d s).infoRsplen = s.infoRsplen := by
  fin_cases j <;> rfl
@[simp] theorem setDin_infoNw (j : Fin 2) (d : DataWord) (s : State) : (setDin j d s).infoNw = s.infoNw := by
  fin_cases j <;> rfl
@[simp] theorem setDin_pending (j : Fin 2) (d : DataWord) (s : State) : (setDin j d s).pending = s.pending := by
  fin_cases j <;> rfl
@[simp] theorem setDin_returned (j : Fin 2) (d : DataWord) (s : State) : (setDin j d s).returned = s.returned := by
  fin_cases j <;> rfl

@[simp] theorem writeHi_hiByte (v : Byte) (d : DataWord) : hiByte (d.writeHi v).word = v := by simp [DataWord.writeHi]
@[simp] theorem writeHi_loByte (v : Byte) (d : DataWord) : loByte (d.writeHi v).word = loByte d.word := by
  simp [DataWord.writeHi]
@[simp] theorem writeHi_hiWritten (v : Byte) (d : DataWord) : (d.writeHi v).hiWritten = true := rfl
@[simp] theorem writeHi_loWritten (v : Byte) (d : DataWord) : (d.writeHi v).loWritten = d.loWritten := rfl
@[simp] theorem writeLo_hiByte (v : Byte) (d : DataWord) : hiByte (d.writeLo v).word = hiByte d.word := by
  simp [DataWord.writeLo]
@[simp] theorem writeLo_loByte (v : Byte) (d : DataWord) : loByte (d.writeLo v).word = v := by simp [DataWord.writeLo]
@[simp] theorem writeLo_hiWritten (v : Byte) (d : DataWord) : (d.writeLo v).hiWritten = d.hiWritten := rfl
@[simp] theorem writeLo_loWritten (v : Byte) (d : DataWord) : (d.writeLo v).loWritten = true := rfl

end Sys2Proof.Machine
end

