-- ==== Sys2Proof/Laws/Exec.lean ====
section
/-! SUPPORT. What each request can do, said once: the next states of each meaning, and of a step. -/

namespace Sys2Proof.Machine

/-- R93. -/
theorem execCrc_next {s t : State} : execCrc s = .next t ↔
    statusFault s.status = false ∧
      ∃ w, dinWord s 0 = some w ∧ t = complete false { s with crcout := checksum (hiByte w) (loByte w) } := by
  simp only [execCrc, accept_next, withInput_next, next_inj]

/-- R96. -/
theorem execValidate_next {len : BitVec 6} {s t : State} : execValidate len s = .next t ↔
    statusFault s.status = false ∧
      ((len.toNat ≤ Config.ibufCap ∧ ∃ b, ibufGroups s len = some b ∧ t = complete (!groupsOk b) s) ∨
        (Config.ibufCap < len.toNat ∧ t = raiseFault .illegalField s)) := by
  simp only [execValidate, accept_next, withLen_next, withInput_next, next_inj]

/-- R127. -/
theorem execStrip_next {len : BitVec 6} {s t : State} : execStrip len s = .next t ↔
    statusFault s.status = false ∧
      ((len.toNat ≤ Config.ibufCap ∧ ∃ b, ibufGroups s len = some b ∧
          t = if groupsOk b then complete false (putResult (stripBytes b) s)
              else complete true { s with olen := 0 }) ∨
        (Config.ibufCap < len.toNat ∧ t = raiseFault .illegalField s)) := by
  simp only [execStrip, accept_next, withLen_next, withInput_next, next_inj]

/-- R121. -/
theorem execFrame_next {cmd : BitVec 4} {s t : State} : execFrame cmd s = .next t ↔
    statusFault s.status = false ∧
      ((∃ e, cmdTab cmd.toNat = some e ∧ t = complete false (putResult (frameBytes e.code []) s)) ∨
        (cmdTab cmd.toNat = none ∧ t = raiseFault .illegalField s)) := by
  simp only [execFrame, accept_next, withCommand_next, next_inj]

/-- R122, R123. -/
theorem execFramed_next {cmd : BitVec 4} {nw : BitVec 2} {s t : State} : execFramed cmd nw s = .next t ↔
    statusFault s.status = false ∧
      ((∃ e, cmdTab cmd.toNat = some e ∧
          (((nw = 1#2 ∨ nw = 2#2) ∧ ∃ ws, dinWords s nw.toNat = some ws ∧
              t = complete false (putResult (frameBytes e.code ws) s)) ∨
            (¬(nw = 1#2 ∨ nw = 2#2) ∧ t = raiseFault .contract s))) ∨
        (cmdTab cmd.toNat = none ∧ t = raiseFault .illegalField s)) := by
  rw [execFramed, accept_next, withCommand_next]
  refine and_congr_right fun _ => or_congr_left ?_
  refine exists_congr fun e => and_congr_right fun _ => ?_
  by_cases h : nw = 1#2 ∨ nw = 2#2
  · rw [if_pos h, withInput_next]
    simp only [next_inj, h, true_and, not_true, false_and, or_false]
  · rw [if_neg h, next_inj]
    simp only [h, false_and, not_false_eq_true, true_and, false_or]

/-- R114. -/
theorem execLookup_next {cmd : BitVec 4} {s t : State} : execLookup cmd s = .next t ↔
    statusFault s.status = false ∧
      ((∃ e, cmdTab cmd.toNat = some e ∧
          t = complete false { s with infoCode := e.code, infoRsplen := e.rsplen, infoNw := e.nw }) ∨
        (cmdTab cmd.toNat = none ∧ t = raiseFault .illegalField s)) := by
  simp only [execLookup, accept_next, withCommand_next, next_inj]

/-- R37, R142: everything a request can do. It takes ILLEGAL_FIELD or CONTRACT, or it completes with its own row of
R37. -/
theorem exec_cases {i : Instr} {s t : State} (h : exec i s = .next t) :
    statusFault s.status = false ∧
      ((∃ c, (c = .illegalField ∨ c = .contract) ∧ t = raiseFault c s) ∨
        (∃ v, i = .crc ∧ t = complete false { s with crcout := v }) ∨
        (∃ len m, i = .validate len ∧ t = complete m s) ∨
        (∃ len bs, i = .strip len ∧ bs.length = 2 * (len.toNat / 3) ∧ bs.length ≤ Config.obufCap ∧
          t = complete false (putResult bs s)) ∨
        (∃ len, i = .strip len ∧ t = complete true { s with olen := 0 }) ∨
        (∃ cmd bs, i = .frame cmd ∧ bs.length = 2 ∧ t = complete false (putResult bs s)) ∨
        (∃ cmd nw bs, i = .framed cmd nw ∧ (bs.length = 5 ∨ bs.length = 8) ∧
          t = complete false (putResult bs s)) ∨
        (∃ cmd e, i = .lookup cmd ∧ cmdTab cmd.toNat = some e ∧
          t = complete false { s with infoCode := e.code, infoRsplen := e.rsplen, infoNw := e.nw })) := by
  cases i with
  | crc =>
    obtain ⟨hf, w, -, rfl⟩ := execCrc_next.1 h
    exact ⟨hf, .inr (.inl ⟨_, rfl, rfl⟩)⟩
  | validate len =>
    obtain ⟨hf, ⟨-, b, -, rfl⟩ | ⟨-, rfl⟩⟩ := execValidate_next.1 h
    · exact ⟨hf, .inr (.inr (.inl ⟨len, _, rfl, rfl⟩))⟩
    · exact ⟨hf, .inl ⟨_, .inl rfl, rfl⟩⟩
  | strip len =>
    obtain ⟨hf, ⟨hl, b, hb, rfl⟩ | ⟨-, rfl⟩⟩ := execStrip_next.1 h
    · have hlen := stripBytes_length (ibufGroups_length hb)
      refine ⟨hf, ?_⟩
      split
      · exact .inr (.inr (.inr (.inl ⟨len, _, rfl, hlen, by rw [hlen]; simp only [Config.ibufCap, Config.obufCap] at *; omega, rfl⟩)))
      · exact .inr (.inr (.inr (.inr (.inl ⟨len, rfl, rfl⟩))))
    · exact ⟨hf, .inl ⟨_, .inl rfl, rfl⟩⟩
  | frame cmd =>
    obtain ⟨hf, ⟨e, -, rfl⟩ | ⟨-, rfl⟩⟩ := execFrame_next.1 h
    · exact ⟨hf, .inr (.inr (.inr (.inr (.inr (.inl ⟨cmd, _, rfl, by simp, rfl⟩)))))⟩
    · exact ⟨hf, .inl ⟨_, .inl rfl, rfl⟩⟩
  | framed cmd nw =>
    obtain ⟨hf, ⟨e, -, ⟨hn, ws, hw, rfl⟩ | ⟨-, rfl⟩⟩ | ⟨-, rfl⟩⟩ := execFramed_next.1 h
    · refine ⟨hf, .inr (.inr (.inr (.inr (.inr (.inr (.inl ⟨cmd, nw, _, rfl, ?_, rfl⟩))))))⟩
      rw [frameBytes_length, dinWords_length (by rcases hn with rfl | rfl <;> decide) hw]
      rcases hn with rfl | rfl
      · exact .inl rfl
      · exact .inr rfl
    · exact ⟨hf, .inl ⟨_, .inr rfl, rfl⟩⟩
    · exact ⟨hf, .inl ⟨_, .inl rfl, rfl⟩⟩
  | lookup cmd =>
    obtain ⟨hf, ⟨e, he, rfl⟩ | ⟨-, rfl⟩⟩ := execLookup_next.1 h
    · exact ⟨hf, .inr (.inr (.inr (.inr (.inr (.inr (.inr ⟨cmd, e, rfl, he, rfl⟩))))))⟩
    · exact ⟨hf, .inl ⟨_, .inl rfl, rfl⟩⟩

/-! ### A step -/

/-- A run whose first step answers a next state goes on from there. -/
theorem run_succ_of_step {s u : State} (n : Nat) (h : step s = .next u) :
    Sys2Proof.core.run (n + 1) s = Sys2Proof.core.run n u := by
  have h' : Sys2Proof.core.step s = .next u := h
  simp only [Host.Core.run, h']

@[simp] theorem step_queue (s : State) (act : HostAction) : step (s.queue act) = perform act s := rfl

/-- A step waits, or performs the oldest pending action. -/
theorem step_cases {s t : State} (h : step s = .next t) :
    (s.pending = [] ∧ t = s) ∨
      ∃ act rest, s.pending = act :: rest ∧ perform act { s with pending := rest } = .next t := by
  unfold step performNext at h
  split at h
  · exact .inl ⟨‹_›, by simpa using h.symm⟩
  · exact .inr ⟨_, _, ‹_›, h⟩

/-- R52: everything a host read can do. -/
theorem hostRead_next {a : HAddr} {s t : State} : hostRead a s = .next t ↔
    (hostReg a = none ∧ t = returnByte 0x00 (raiseFault .illegalAccess s)) ∨
      ∃ r v, hostReg a = some r ∧ hostContent s r = some v ∧ t = returnByte v s := by
  unfold hostRead
  cases hostReg a <;> simp [withInput_next, eq_comm (b := t)]

/-- R53: everything a host write can do. -/
theorem hostWrite_next {a : HAddr} {v : Byte} {s t : State} : hostWrite a v s = .next t ↔
    ((hostReg a).bind (hostStore v s) = none ∧ t = raiseFault .illegalAccess s) ∨
      (hostReg a).bind (hostStore v s) = some t := by
  unfold hostWrite
  cases (hostReg a).bind (hostStore v s) <;> simp [eq_comm (b := t)]

/-- R77: everything the issue of a word can do. -/
theorem issue_next {rq : RequestWord} {s t : State} : issue rq s = .next t ↔
    (∃ i, decode rq = .ok i ∧ exec i s = .next t) ∨
      ∃ r, decode rq = .error r ∧ statusFault s.status = false ∧ t = raiseFault (rejectCause r) s := by
  unfold issue
  cases decode rq <;> simp [rejectRequest, accept_next, eq_comm (b := t)]

end Sys2Proof.Machine
end

