-- ==== Sys2Proof/Laws/PerInstr.lean ====
section
/-! SUPPORT. Families of statements made per constructor of Instr. -/

/-- The word of the request has a defined OP, 0x1 to 0x6 (spec/30_encoding.md R75, R78). -/
def Sys2Proof.Laws.EncodesDefinedOp.Statement (i : Sys2Proof.Instr) : Prop :=
  1 ≤ (Sys2Proof.fieldsOf (Sys2Proof.encode i)).op.toNat ∧ (Sys2Proof.fieldsOf (Sys2Proof.encode i)).op.toNat ≤ 6

namespace Sys2Proof.Laws.EncodesDefinedOp

theorem crc : Statement .crc := by unfold Statement; decide

theorem validate (len : BitVec 6) : Statement (.validate len) := by unfold Statement; revert len; decide

theorem strip (len : BitVec 6) : Statement (.strip len) := by unfold Statement; revert len; decide

theorem frame (cmd : BitVec 4) : Statement (.frame cmd) := by unfold Statement; revert cmd; decide

theorem framed (cmd : BitVec 4) (nw : BitVec 2) : Statement (.framed cmd nw) := by
  unfold Statement; revert cmd nw; decide

theorem lookup (cmd : BitVec 4) : Statement (.lookup cmd) := by unfold Statement; revert cmd; decide

end Sys2Proof.Laws.EncodesDefinedOp
end

