-- ==== Sys2Proof/Tests/Slice0.lean ====
section
/-! SUPPORT. The model's own tests, with expected results from spec/95_test_vectors.md and the rules, and for every
statement with hypotheses a named witness that meets them. -/

namespace Sys2Proof.Tests

open Sys2Proof Sys2Proof.Machine

/-! ### Builders -/

/-- A state in which IBUF holds the bytes from index 0 on. -/
def withIbuf (bs : List Byte) : State := { State.reset with mem := Memory.writeBytes [] ibufBase bs }

/-- A state in which the host has written the bytes to DIN0_HI, DIN0_LO, DIN1_HI and DIN1_LO, in this order. -/
def withDin (bs : List Byte) : State :=
  ([(0, true), (0, false), (1, true), (1, false)].zip bs).foldl
    (fun s c => setDin c.1.1 (if c.1.2 then (dinReg s c.1.1).writeHi c.2 else (dinReg s c.1.1).writeLo c.2) s) State.reset

/-- A state in which a fault has been taken. -/
def faulted (c : Cause) (s : State) : State := raiseFault c s

/-- What a test checks of the next state; false where there is none. -/
def nextIs (o : Host.Outcome State Fault Refusal) (p : State → Bool) : Bool := (nextOf o).any p

theorem exists_next {o : Host.Outcome State Fault Refusal} {p : State → Bool} (h : nextIs o p = true) :
    ∃ t, o = .next t ∧ p t = true := by
  cases o <;> simp_all [nextIs, nextOf]

/-- The first `n` bytes of OBUF, 0 where unwritten. -/
def obufList (s : State) (n : Nat) : List Byte := (List.range n).map fun k => (obufByte s k).getD 0

/-! ### Well-formedness: each check refuses an ill-formed term -/

theorem test_wf_len : Instr.wf (.validate 33) = false ∧ Instr.wf (.validate 32) = true ∧
    Instr.wf (.strip 63) = false ∧ Instr.wf (.strip 32) = true := by decide
theorem test_wf_cmd : Instr.wf (.frame 9) = false ∧ Instr.wf (.frame 8) = true ∧ Instr.wf (.framed 9 1) = false ∧
    Instr.wf (.framed 8 1) = true ∧ Instr.wf (.lookup 15) = false ∧ Instr.wf (.lookup 8) = true := by decide
theorem test_wf_nw : Instr.wf (.framed 0 0) = false ∧ Instr.wf (.framed 0 3) = false ∧
    Instr.wf (.framed 0 2) = true := by decide
theorem test_wf_crc : Instr.wf .crc = true := by decide

/-! ### Decoding: words written out field by field from R70 and R75 (OP, CMD, NW, LEN) -/

theorem test_decode_crc : decode 0b0001_0000_00_000000#16 = .ok .crc := by rfl
theorem test_decode_validate : decode 0b0010_0000_00_100000#16 = .ok (.validate 32) := by rfl
theorem test_decode_strip : decode 0b0011_0000_00_000110#16 = .ok (.strip 6) := by rfl
theorem test_decode_frame : decode 0b0100_1000_00_000000#16 = .ok (.frame 8) := by rfl
theorem test_decode_framed : decode 0b0101_0110_10_000000#16 = .ok (.framed 6 2) := by rfl
theorem test_decode_lookup : decode 0b0110_0011_00_000000#16 = .ok (.lookup 3) := by rfl
theorem test_decode_reserved_op : decode 0b0000_0000_00_000000#16 = .error .reservedOp ∧
    decode 0b0111_0000_00_000000#16 = .error .reservedOp ∧ decode 0b1111_0001_00_100011#16 = .error .reservedOp :=
  ⟨rfl, rfl, rfl⟩
theorem test_decode_unused_field : decode 0x1001 = .error .unusedFieldNotZero ∧
    decode 0x2040 = .error .unusedFieldNotZero ∧ decode 0x3100 = .error .unusedFieldNotZero ∧
    decode 0x4301 = .error .unusedFieldNotZero ∧ decode 0x5741 = .error .unusedFieldNotZero ∧
    decode 0x6040 = .error .unusedFieldNotZero := ⟨rfl, rfl, rfl, rfl, rfl, rfl⟩
/-- spec/30_encoding.md R81 and the words of spec/95_test_vectors.md. -/
theorem test_encode : encode .crc = 0x1000 ∧ encode (.validate 8) = 0x2008 ∧ encode (.strip 32) = 0x3020 ∧
    encode (.frame 3) = 0x4300 ∧ encode (.framed 7 1) = 0x5740 ∧ encode (.lookup 8) = 0x6800 := by decide
theorem test_table_word : decodeTableWord 16 0x5000 = some (.framed 0 0) ∧ decodeTableWord 16 0x11000 = none ∧
    decodeTableWord 8 0x10 = none ∧ decodeTableWord 16 0x0000 = none := ⟨rfl, rfl, rfl, rfl⟩

/-! ### The six requests, from spec/95_test_vectors.md 2.2 to 2.6 -/

theorem test_crc : nextIs (exec .crc (withDin [0xBE, 0xEF])) (fun t => t.crcout == 0x92 && t.status == 0x01) = true := by
  decide +kernel
theorem test_crc_high_byte_first :
    nextIs (exec .crc (withDin [0x80, 0x00])) (fun t => t.crcout == 0xA2) = true := by decide +kernel
theorem test_validate_ten_groups :
    nextIs (exec (.validate 32) (withIbuf ((List.replicate 9 [0x00, 0x00, 0x81]).flatten ++ [0, 0, 0x80, 0x11, 0x22])))
      (fun t => t.status == 0x03) = true := by decide +kernel
theorem test_validate_second_group_bad :
    nextIs (exec (.validate 6) (withIbuf [0x12, 0x34, 0x37, 0xD4, 0x02, 0xA5])) (fun t => t.status == 0x03) = true := by
  decide +kernel
theorem test_strip :
    nextIs (exec (.strip 8) (withIbuf [0x12, 0x34, 0x37, 0xD4, 0x02, 0xA4, 0xDE, 0xAD]))
      (fun t => obufList t 4 == [0x12, 0x34, 0xD4, 0x02] && t.olen == 4 && t.status == 0x01) = true := by decide +kernel
theorem test_strip_full :
    nextIs (exec (.strip 32) (withIbuf ((List.replicate 10 [0x00, 0x00, 0x81]).flatten ++ [0x11, 0x22])))
      (fun t => t.olen == 20 && (obufByte t 19) == some 0) = true := by decide +kernel
theorem test_frame : nextIs (exec (.frame 6) State.reset) (fun t => obufList t 2 == [0x20, 0x1E] && t.olen == 2) = true := by
  decide +kernel
theorem test_framed_one : nextIs (exec (.framed 7 1) (withDin [0x0F, 0x80]))
    (fun t => obufList t 5 == [0x20, 0x61, 0x0F, 0x80, 0x62] && t.olen == 5 && (obufByte t 5) == none) = true := by
  decide +kernel
theorem test_framed_two : nextIs (exec (.framed 6 2) (withDin [0x12, 0x34, 0xD4, 0x02]))
    (fun t => obufList t 8 == [0x20, 0x1E, 0x12, 0x34, 0x37, 0xD4, 0x02, 0xA4] && t.olen == 8) = true := by
  decide +kernel
theorem test_lookup : nextIs (exec (.lookup 0) State.reset)
    (fun t => t.infoCode == 0x3682 && t.infoRsplen == 9 && t.infoNw == 0 && t.status == 0x01) = true := by decide +kernel
theorem test_lookup_set_baseline : nextIs (exec (.lookup 6) State.reset)
    (fun t => t.infoCode == 0x201E && t.infoRsplen == 0 && t.infoNw == 2) = true := by decide +kernel

/-! ### Faults, accesses and reset, from spec/95_test_vectors.md 2.7 -/

theorem test_fault_words :
    ([(0x0000, 0x0C), (0x7000, 0x0C), (0x1001, 0x14), (0x1040, 0x14), (0x2021, 0x14), (0x4900, 0x14), (0x5741, 0x14),
      (0x5900, 0x14), (0x5700, 0x1C), (0x57C0, 0x1C)] : List (Nat × Byte)).all
      (fun c => nextIs (step (State.reset.withFetchWord 16 c.1)) (fun t => t.status == c.2)) = true := by decide +kernel
theorem test_fault_keeps_cserr :
    nextIs (step ((complete true State.reset).withFetchWord 16 0x7000)) (fun t => t.status == 0x0F) = true := by
  decide +kernel
theorem test_first_cause_wins :
    nextIs (step ((faulted .contract State.reset).queue (.rd 0x34)))
      (fun t => t.status == 0x1C && t.returned == [0x00]) = true := by decide +kernel
theorem test_write_read_only :
    nextIs (step (State.reset.queue (.wr 0x46 0x00))) (fun t => t.status == 0x24) = true := by decide +kernel
theorem test_read_obuf_after_reset : faultOf (step (State.reset.queue (.rd 0x20))) = some .unwrittenRead := by decide +kernel
theorem test_validate_unwritten : faultOf (exec (.validate 3) (withIbuf [0x01, 0x02])) = some .unwrittenRead := by
  decide +kernel
theorem test_reset_action : nextIs (step ((faulted .contract (withDin [1, 2])).queue .reset)) (fun t => t == State.reset) = true := by
  decide +kernel
theorem test_wrw : wrw 1 0xD402 = [.wr 0x42 0xD4, .wr 0x43 0x02] := by decide
theorem test_request_text : requestText (.framed 7 1) = "framed SetHumidity, 1" ∧ requestText (.strip 32) = "strip 32" := by
  decide
theorem test_action_text : actionText (.wr 0x40 15) = some "wr DIN0_HI, 15" ∧ actionText (.rd 0x34) = some "rd 52" ∧
    actionText (.issue 0x6300) = some "lookup MeasureAirQuality" ∧ actionText (.issue 0) = none := by decide +kernel
theorem test_send_recv : send .setBaseline = [.issue 0x5680] ∧ recv .getSerial = some [.issue 0x3009] ∧
    recv .setHumidity = none := by decide

/-! ### Witnesses: states and operands that meet the hypotheses of the statements -/

theorem witness_EncodeOfDecodedIsTheWord : ∃ rq i, decode rq = .ok i := ⟨0x2020, .validate 32, rfl⟩
theorem witness_StepRunsTheDecodedRequest :
    ∃ (s : State) (rq : RequestWord) (i : Instr) (rest : List HostAction), s.pending = .issue rq :: rest ∧ decode rq = .ok i :=
  ⟨State.reset.queue (.issue 0x5680), 0x5680, .framed 6 2, [], rfl, rfl⟩
theorem witness_IssueTakesTheFirstFaultThatApplies :
    State.reset.accepting = true ∧ faultOfWord 0x7000 = some .illegalOp ∧ faultOfWord 0x0FFF = some .illegalOp ∧
    faultOfWord 0x1001 = some .illegalField ∧ faultOfWord 0x2021 = some .illegalField ∧
    faultOfWord 0x3020 = none ∧ faultOfWord 0x4900 = some .illegalField ∧ faultOfWord 0x5900 = some .illegalField ∧
    faultOfWord 0x58C0 = some .contract ∧ faultOfWord 0x5880 = none ∧ faultOfWord 0x6800 = none := by decide
theorem witness_OnlyRequestsAreStuckWhileFaulted :
    (faulted .contract (withIbuf [7])).accepting = false ∧ hostReg 0x00 = some (.ibuf 0) ∧
    hostContent (faulted .contract (withIbuf [7])) (.ibuf 0) = some 7 ∧ unmappedAddr 0x34 = true ∧ unmappedAddr 0x7F = true ∧ readOnlyAddr 0x20 = true ∧
    readOnlyAddr 0x4B = true := by decide
theorem witness_WaitingChangesNothing : ∃ s : State, s.pending = [] := ⟨State.reset, rfl⟩
theorem witness_HostActionsRunInOrder : ∃ s t, step s = .next t ∧ s.pending ≠ [] :=
  ⟨State.reset.queue .reset, State.reset, rfl, by decide⟩
/-- Both stops of the statement occur. -/
theorem witness_StepStopsOnlyWhenStuckOrUnwritten :
    faultOf (step ((faulted .contract State.reset).queue (.issue 0x1000))) = some .requestStuck ∧
    faultOf (step (State.reset.queue (.rd 0x43))) = some .unwrittenRead ∧
    faultOf (step (State.reset.queue (.issue 0x5880))) = some .unwrittenRead := by decide +kernel
theorem witness_ReadReturnsTheMappedContent :
    ibufByte (withIbuf (List.replicate 32 9)) 31 = some 9 ∧
    obufByte { State.reset with mem := Memory.writeBytes [] obufBase (List.replicate 20 8) } 19 = some 8 ∧
    dinHi (withDin [1, 2, 3, 4]) 0 = some 1 ∧ dinLo (withDin [1, 2, 3, 4]) 0 = some 2 ∧
    dinHi (withDin [1, 2, 3, 4]) 1 = some 3 ∧ dinLo (withDin [1, 2, 3, 4]) 1 = some 4 := by decide +kernel
theorem witness_ReadOfUnwrittenByteFaults :
    ibufByte State.reset 31 = none ∧ obufByte State.reset 19 = none ∧ dinHi State.reset 1 = none ∧
    dinLo State.reset 1 = none ∧ Instr.WellFormed (.framed 8 2) ∧ State.reset.accepting = true ∧
    inputsWritten (.framed 8 2) (withDin [1, 2, 3]) = false := by decide
/-- The ranges of R51 meet here: the last IBUF byte, OBUF, the holes, DIN, the results. -/
theorem witness_IllegalAccessTakesItsFault :
    unmappedAddr 0x34 = true ∧ unmappedAddr 0x3F = true ∧ unmappedAddr 0x47 = true ∧ unmappedAddr 0x4C = true ∧
    unmappedAddr 0x7F = true ∧ unmappedAddr 0x33 = false ∧ unmappedAddr 0x40 = false ∧ unmappedAddr 0x46 = false ∧
    unmappedAddr 0x48 = false ∧ unmappedAddr 0x4B = false ∧ readOnlyAddr 0x1F = false ∧ readOnlyAddr 0x20 = true ∧
    readOnlyAddr 0x33 = true ∧ readOnlyAddr 0x43 = false ∧ readOnlyAddr 0x44 = true ∧ readOnlyAddr 0x4B = true := by decide
theorem witness_WriteChangesExactlyOneByte :
    nextIs (step (State.reset.queue (.wr 0x1F 5))) (fun t => ibufByte t 31 == some 5) = true ∧
    nextIs (step (State.reset.queue (.wr 0x42 6))) (fun t => dinHi t 1 == some 6) = true ∧
    nextIs (step (State.reset.queue (.wr 0x43 7))) (fun t => dinLo t 1 == some 7) = true := by decide +kernel
theorem witness_ResetIsTheOnlyWayOutOfAFault :
    ∃ s t : State, step s = .next t ∧ s.accepting = false ∧ t.accepting = true :=
  ⟨(faulted .contract State.reset).queue .reset, State.reset, rfl, by decide, by decide⟩
/-- The state after a `frame` meets the invariant, and a step leads on from it. -/
theorem witness_StepKeepsTheInvariant : ∃ s t : State, s.Inv ∧ step s = .next t := by
  refine ⟨complete false (putResult [0x20, 0x08] State.reset), _, ⟨by decide, by decide, by decide, by decide, by decide, by decide, ?_, .inl (by decide)⟩, rfl⟩
  decide
theorem witness_CrcWritesTheChecksumOfDin0 :
    (withDin [0xBE, 0xEF]).accepting = true ∧ dinHi (withDin [0xBE, 0xEF]) 0 = some 0xBE ∧
    dinLo (withDin [0xBE, 0xEF]) 0 = some 0xEF := by decide
theorem witness_OneWordRequestsIgnoreDin1 :
    (∀ cmd, (.crc : Instr) ≠ .framed cmd 2) ∧ (∀ cmd, (.framed 0 1 : Instr) ≠ .framed cmd 2) ∧
    nextIs (exec .crc (setDin 1 (DataWord.reset.writeHi 9) (withDin [1, 2]))) (fun t => dinHi t 1 == some 9) = true ∧
    nextIs (exec (.framed 0 1) (setDin 1 (DataWord.reset.writeLo 9) (withDin [1, 2]))) (fun t => dinLo t 1 == some 9) =
      true := by decide +kernel
/-- The states differ in an unwritten half, and one answers a next state. -/
theorem witness_UnwrittenDinIsNeverSeen :
    sameButUnwrittenDin (withDin [1]) (setDin 0 { (withDin [1]).din0 with word := 0x01FF } (withDin [1])) ∧
    setDin 0 { (withDin [1]).din0 with word := 0x01FF } (withDin [1]) ≠ withDin [1] ∧
    nextIs (step ((withDin [1]).queue (.rd 0x40))) (fun t => t.returned == [1]) = true ∧
    faultOf (step ((withDin [1]).queue (.rd 0x41))) = some .unwrittenRead := by
  refine ⟨⟨⟨rfl, rfl, ?_, ?_⟩, ⟨rfl, rfl, ?_, ?_⟩, rfl⟩, ?_, ?_, ?_⟩ <;> decide
/-- A passing and a failing buffer, and the longest one. -/
theorem witness_ValidateReportsAnyFailingGroup :
    (withIbuf [0xBE, 0xEF, 0x93]).accepting = true ∧ (3 : BitVec 6).toNat ≤ 32 ∧
    (∀ k, k < 3 → ibufByte (withIbuf [0xBE, 0xEF, 0x93]) k = some (([0xBE, 0xEF, 0x93] : List Byte).getD k 0)) ∧
    crc8 [0xBE, 0xEF] ≠ 0x93 ∧ crc8 [0xBE, 0xEF] = 0x92 ∧ (32 : BitVec 6).toNat ≤ 32 ∧
    (∀ k, k < 3 * ((32 : BitVec 6).toNat / 3) → ibufByte (withIbuf (List.replicate 30 4)) k = some 4) := by
  decide +kernel
theorem witness_ValidateAcceptsExactlyTheChecksum :
    (withIbuf [0xBE, 0xEF, 0x92]).accepting = true ∧ ibufByte (withIbuf [0xBE, 0xEF, 0x92]) 0 = some 0xBE ∧
    ibufByte (withIbuf [0xBE, 0xEF, 0x92]) 1 = some 0xEF ∧ ibufByte (withIbuf [0xBE, 0xEF, 0x92]) 2 = some 0x92 ∧
    (0x92 : Byte) = checksum 0xBE 0xEF ∧ (0x93 : Byte) ≠ checksum 0xBE 0xEF ∧ (2 : BitVec 6).toNat ≤ 2 := by
  decide +kernel
theorem witness_TrailingPartialGroupIsNotRead :
    3 * ((8 : BitVec 6).toNat / 3) ≤ 6 ∧ 6 < 32 ∧ 3 * ((32 : BitVec 6).toNat / 3) ≤ 30 ∧ 31 < 32 ∧
    State.reset.accepting = true ∧ (2 : BitVec 6).toNat < 3 := by decide
theorem witness_StripKeepsTheDataBytesOfPassingGroups :
    (withIbuf [0xBE, 0xEF, 0x92]).accepting = true ∧ (3 : BitVec 6).toNat ≤ 32 ∧
    (∀ k, k < 3 * ((3 : BitVec 6).toNat / 3) →
      ibufByte (withIbuf [0xBE, 0xEF, 0x92]) k = some (([0xBE, 0xEF, 0x92] : List Byte).getD k 0)) ∧
    crc8 [0xBE, 0xEF] = 0x92 := by decide +kernel
theorem witness_StripOfFailingBufferWritesNoData :
    (withIbuf [0xBE, 0xEF, 0x93]).accepting = true ∧ 0 < (3 : BitVec 6).toNat / 3 ∧
    (∀ k, k < 3 * ((3 : BitVec 6).toNat / 3) →
      ibufByte (withIbuf [0xBE, 0xEF, 0x93]) k = some (([0xBE, 0xEF, 0x93] : List Byte).getD k 0)) ∧
    crc8 [0xBE, 0xEF] ≠ 0x93 := by decide +kernel
theorem witness_ValidateAndStripAgree : ∃ t, exec (.validate 32) (withIbuf (List.replicate 30 4)) = .next t ∧
    statusValid t.status = true := exists_next (by decide +kernel)
theorem witness_FrameIsTheCommandCodeAlone :
    State.reset.accepting = true ∧ cmdTab (8 : BitVec 4).toNat = some { code := 0x202F, nw := 0, rsplen := 3 } := by decide
theorem witness_FramedAppendsChecksummedWords :
    (withDin [1, 2, 3, 4]).accepting = true ∧ (cmdTab (8 : BitVec 4).toNat).isSome = true ∧
    dinHi (withDin [1, 2, 3, 4]) 0 = some 1 ∧ dinLo (withDin [1, 2, 3, 4]) 0 = some 2 ∧
    dinHi (withDin [1, 2, 3, 4]) 1 = some 3 ∧ dinLo (withDin [1, 2, 3, 4]) 1 = some 4 := by decide
theorem witness_OtherWordCountsViolateTheContract :
    State.reset.accepting = true ∧ (8 : BitVec 4).toNat ≤ 8 ∧ ((3 : BitVec 2) = 0 ∨ (3 : BitVec 2) = 3) := by decide
theorem witness_StripUndoesFramed :
    ∃ t, exec (.framed 6 2) (withDin [0x12, 0x34, 0xD4, 0x02]) = .next t ∧
      ((List.range 6).all (fun k =>
          ibufByte (withIbuf [0x12, 0x34, 0x37, 0xD4, 0x02, 0xA4]) k == obufByte t (2 + k)) &&
        (withIbuf [0x12, 0x34, 0x37, 0xD4, 0x02, 0xA4]).accepting) = true := exists_next (by decide +kernel)
theorem witness_LookupWritesTheRowOfTheCommand :
    State.reset.accepting = true ∧ (cmdTab (0 : BitVec 4).toNat).isSome = true := by decide
theorem witness_CommandSetIsClosed :
    State.reset.accepting = true ∧ 9 ≤ (9 : BitVec 4).toNat ∧ 9 ≤ (15 : BitVec 4).toNat ∧
    nextIs (exec (.frame 8) State.reset) (fun t => t.accepting) = true ∧
    nextIs (exec (.framed 8 1) (withDin [1, 2])) (fun t => t.accepting) = true := by decide +kernel
theorem witness_LengthsAboveTheBufferTakeIllegalField :
    State.reset.accepting = true ∧ 33 ≤ (33 : BitVec 6).toNat ∧ 33 ≤ (63 : BitVec 6).toNat := by decide
theorem witness_FirstCauseIsKeptUntilReset :
    ∃ t, step ((faulted .contract State.reset).queue (.rd 0x34)) = .next t ∧
      (!(faulted .contract State.reset).accepting) = true := exists_next (by decide +kernel)
theorem witness_ValidIsSetByEveryCompletedRequest :
    nextIs (step (State.reset.queue (.issue 0x6000))) (fun t => t.accepting) = true ∧
    nextIs (step (State.reset.queue (.issue 0x0000))) (fun t => !t.accepting) = true ∧
    nextIs (step ((complete false State.reset).queue .reset)) (fun t => !statusValid t.status) = true := by decide +kernel
theorem witness_CserrDescribesTheLastCompletedRequest :
    nextIs (step ((withIbuf [0, 0, 0]).queue (.issue 0x2003))) (fun t => t.accepting && statusCserr t.status) = true ∧
    nextIs (step (State.reset.queue (.issue 0x2021))) (fun t => !t.accepting) = true ∧
    nextIs (step (State.reset.queue (.issue 0x0000))) (fun t => !t.accepting) = true := by decide +kernel
theorem witness_NoRequestWritesItsInputs : ∃ t, exec (.strip 3) (withIbuf [0xBE, 0xEF, 0x92]) = .next t ∧
    t.accepting = true := exists_next (by decide +kernel)
theorem witness_RequestWritesOnlyItsRow :
    nextIs (exec .crc (withDin [1, 2])) (fun t => t.accepting) = true ∧
    nextIs (exec (.validate 2) State.reset) (fun t => t.accepting) = true ∧
    nextIs (exec (.strip 3) (withIbuf [0xBE, 0xEF, 0x93])) (fun t => t.accepting) = true ∧
    nextIs (exec (.frame 0) State.reset) (fun t => t.accepting) = true ∧
    nextIs (exec (.framed 0 1) (withDin [1, 2])) (fun t => t.accepting) = true ∧
    nextIs (exec (.lookup 0) State.reset) (fun t => t.accepting) = true ∧
    nextIs (step (State.reset.queue (.issue 0x6900))) (fun t => !t.accepting) = true := by decide +kernel
theorem witness_LegalRequestWithWrittenInputsCompletes :
    inputsWritten .crc (withDin [1, 2]) = true ∧ inputsWritten (.validate 32) (withIbuf (List.replicate 30 4)) = true ∧
    inputsWritten (.strip 2) State.reset = true ∧ inputsWritten (.framed 8 2) (withDin [1, 2, 3, 4]) = true ∧
    Instr.WellFormed (.framed 8 2) ∧ Instr.WellFormed (.strip 2) ∧ State.reset.accepting = true := by decide +kernel
theorem witness_SameRequestTwiceIsOnce : ∃ t, exec (.framed 0 1) (withDin [1, 2]) = .next t ∧ t.accepting = true :=
  exists_next (by decide +kernel)
theorem witness_LoadFillsTheInputBuffer : (load [1]).isSome = true ∧ (load (List.replicate 32 1)).isSome = true ∧
    load [] = none ∧ load (List.replicate 33 1) = none := by decide
theorem witness_SendAndRecvExpandByTheTable :
    (commandInfo .getSerial).nw = 0 ∧ ((2 : BitVec 2) ≠ 0 ∧ (2 : BitVec 2).toNat = (commandInfo .setBaseline).nw.toNat) ∧
    ((9 : BitVec 6) ≠ 0 ∧ (9 : BitVec 6).toNat = (commandInfo .getSerial).rsplen.toNat) ∧
    (commandInfo .setHumidity).rsplen = 0 := by decide
theorem witness_BlocksShareNoState :
    [State.reset, State.reset.queue .reset][1]? = some (State.reset.queue .reset) ∧
    faultOf (step (State.reset.queue (.rd 0x20))) = some .unwrittenRead ∧
    (nextOf (stepBlock [State.reset, State.reset.queue (.wr 0 1)] 1)).any (fun bs => bs[0]? == some State.reset) = true := by
  decide +kernel

end Sys2Proof.Tests
end

/-! ### What the host's accesses can do, and which outcomes an issue has -/

namespace Sys2Proof.Machine

/-- R52, R56: a host read hands the host a byte, and takes ILLEGAL_ACCESS or leaves the block as it was. -/
theorem hostRead_cases {a : HAddr} {s t : State} (h : hostRead a s = .next t) :
    ∃ v, t = returnByte v (raiseFault .illegalAccess s) ∨ t = returnByte v s := by
  obtain ⟨-, rfl⟩ | ⟨r, v, -, -, rfl⟩ := hostRead_next.1 h
  · exact ⟨_, .inl rfl⟩
  · exact ⟨v, .inr rfl⟩

/-- R53, R54, R56: a host write takes ILLEGAL_ACCESS, or writes one byte of IBUF or one data-word register. -/
theorem hostWrite_cases {a : HAddr} {v : Byte} {s t : State} (h : hostWrite a v s = .next t) :
    t = raiseFault .illegalAccess s ∨
      (∃ k, k < Config.ibufCap ∧ t = { s with mem := Memory.write s.mem (ibufBase + k) v }) ∨
      ∃ j d, t = setDin j d s := by
  obtain ⟨-, rfl⟩ | h := hostWrite_next.1 h
  · exact .inl rfl
  · obtain ⟨r, hr, hs⟩ := Option.bind_eq_some_iff.1 h
    obtain ⟨k, rfl, rfl⟩ | ⟨j, -, rfl⟩ | ⟨j, -, rfl⟩ := hostStore_eq_some.1 hs
    · exact .inr (.inl ⟨k, (hostReg_ibuf hr).2, rfl⟩)
    · exact .inr (.inr ⟨j, _, rfl⟩)
    · exact .inr (.inr ⟨j, _, rfl⟩)

@[simp] theorem accepting_raiseFault (c : Cause) (s : State) : (raiseFault c s).accepting = false := by
  simp [State.accepting]

theorem accepting_iff {s : State} : s.accepting = true ↔ statusFault s.status = false := by
  simp [State.accepting]

/-- R28, R142: a request takes a fault and does nothing else, or it completes and the block still accepts requests. -/
theorem exec_faults_or_completes {i : Instr} {s t : State} (h : exec i s = .next t) :
    (∃ c, t = raiseFault c s) ∨ (t.accepting = true ∧ ∃ m, t.status = statusCompleted s.status m) := by
  have completes : ∀ m, statusFault s.status = false → t.status = statusCompleted s.status m →
      t.accepting = true ∧ ∃ m, t.status = statusCompleted s.status m :=
    fun m hf ht => ⟨by rw [accepting_iff, ht, statusFault_completed, hf], m, ht⟩
  obtain ⟨hf, ⟨c, -, rfl⟩ | hdone⟩ := exec_cases h
  · exact .inl ⟨c, rfl⟩
  · right
    obtain ⟨v, -, rfl⟩ | ⟨len, m, -, rfl⟩ | ⟨len, bs, -, -, -, rfl⟩ | ⟨len, -, rfl⟩ | ⟨cmd, bs, -, -, rfl⟩ |
      ⟨cmd, nw, bs, -, -, rfl⟩ | ⟨cmd, e, -, -, rfl⟩ := hdone <;> exact completes _ hf rfl

/-- R77, R78: the same for the issue of any word. -/
theorem issue_faults_or_completes {rq : RequestWord} {s t : State} (h : issue rq s = .next t) :
    (∃ c, t = raiseFault c s) ∨ (t.accepting = true ∧ ∃ m, t.status = statusCompleted s.status m) := by
  obtain ⟨i, -, hi⟩ | ⟨r, -, -, rfl⟩ := issue_next.1 h
  · exact exec_faults_or_completes hi
  · exact .inl ⟨_, rfl⟩

/-- An issue after which the block accepts no request has taken a fault. -/
theorem issue_faulted {rq : RequestWord} {s t : State} (h : issue rq s = .next t) (ht : t.accepting = false) :
    ∃ c, t = raiseFault c s := by
  obtain hc | ⟨ha, -⟩ := issue_faults_or_completes h
  · exact hc
  · simp [ha] at ht

/-- The step whose next action is the issue of a word. -/
theorem step_queue_issue (s : State) (rq : RequestWord) : step (s.queue (.issue rq)) = issue rq s := rfl

end Sys2Proof.Machine

/-! ### The invariant -/

namespace Sys2Proof.Machine

/-- The invariant speaks of the byte store, STATUS, OLEN and INFO_* only. -/
theorem inv_of_same {s t : State} (h : s.Inv) (hmem : t.mem = s.mem) (hstatus : t.status = s.status)
    (holen : t.olen = s.olen) (hinfo : sameInfo s t) : t.Inv := by
  obtain ⟨hcode, hrsplen, hnw⟩ := hinfo
  constructor
  · rw [hmem]; exact h.memCanonical
  · rw [hstatus]; exact h.statusReservedZero
  · rw [hstatus]; exact h.fcauseOfFault
  · rw [hstatus]; exact h.fcauseOfNoFault
  · rw [hstatus]; exact h.cserrCompleted
  · rw [holen]; exact h.olenLegal
  · simpa only [obufByte, hmem, holen] using h.resultWritten
  · rw [hcode, hrsplen, hnw]; exact h.infoFromTable

theorem reset_inv : State.reset.Inv where
  memCanonical := Memory.wf_reset
  statusReservedZero := by decide
  fcauseOfFault := by decide
  fcauseOfNoFault := by decide
  cserrCompleted := by decide
  olenLegal := by decide
  resultWritten := by decide
  infoFromTable := .inl ⟨rfl, rfl, rfl⟩

theorem hostReset_inv (s : State) : (hostReset s).Inv := inv_of_same reset_inv rfl rfl rfl ⟨rfl, rfl, rfl⟩

theorem raiseFault_inv {s : State} (h : s.Inv) (c : Cause) : (raiseFault c s).Inv :=
  { h with
    statusReservedZero := by simpa using h.statusReservedZero
    fcauseOfFault := fun _ => by
      simp only [raiseFault_status, statusFcause_raised]
      split
      · exact h.fcauseOfFault ‹_›
      · exact causeCode_range c
    fcauseOfNoFault := by simp
    cserrCompleted := by simpa using h.cserrCompleted }

theorem complete_inv {s : State} (h : s.Inv) (m : Bool) : (complete m s).Inv :=
  { h with
    statusReservedZero := by simpa using h.statusReservedZero
    fcauseOfFault := by simpa using h.fcauseOfFault
    fcauseOfNoFault := by simpa using h.fcauseOfNoFault
    cserrCompleted := by simp }

/-- The bytes of a result that fits OBUF are written, and OLEN counts them (R24, R25). -/
theorem putResult_result {bs : List Byte} (hlen : bs.length ≤ Config.obufCap) (s : State) :
    (putResult bs s).olen.toNat = bs.length ∧
      ∀ k, k < bs.length → (obufByte (putResult bs s) k).isSome = true := by
  constructor
  · simp only [Config.obufCap] at hlen
    simp only [putResult_olen, BitVec.toNat_ofNat]; omega
  · intro k hk
    simp [obufByte, Memory.read_writeBytes_inside _ _ _ hk]

theorem putResult_inv {s : State} (h : s.Inv) {bs : List Byte}
    (hlegal : bs.length = 5 ∨ (bs.length % 2 = 0 ∧ bs.length ≤ Config.obufCap)) : (putResult bs s).Inv := by
  have hlen : bs.length ≤ Config.obufCap := by simp only [Config.obufCap] at *; omega
  obtain ⟨holen, hwritten⟩ := putResult_result hlen s
  exact
    { h with
      memCanonical := Memory.wf_writeBytes _ _ _ (fun k hk => isBufferAddr_obuf (by omega)) h.memCanonical
      olenLegal := by rwa [holen]
      resultWritten := by rwa [holen] }

/-- R128: an empty result is legal whatever OBUF holds. -/
theorem clearOlen_inv {s : State} (h : s.Inv) : { s with olen := 0 }.Inv :=
  { h with
    olenLegal := .inr ⟨rfl, Nat.zero_le _⟩
    resultWritten := fun k hk => absurd hk (Nat.not_lt_zero k) }

/-- R114: INFO_* take a row of the command table. -/
theorem setInfo_inv {s : State} (h : s.Inv) {k : Nat} {e : CommandInfo} (he : cmdTab k = some e) :
    { s with infoCode := e.code, infoRsplen := e.rsplen, infoNw := e.nw }.Inv :=
  { h with infoFromTable := .inr ⟨k, he⟩ }

/-- R53: a write of a byte of IBUF leaves every byte of OBUF as it was. -/
theorem writeIbuf_inv {s : State} (h : s.Inv) {k : Nat} (hk : k < Config.ibufCap) (v : Byte) :
    { s with mem := Memory.write s.mem (ibufBase + k) v }.Inv := by
  have hother : ∀ i, obufBase + i ≠ ibufBase + k := by simp only [obufBase, ibufBase, Config.ibufCap] at *; omega
  exact
    { h with
      memCanonical := Memory.wf_write _ _ _
        ((isBufferAddr_iff _).2 (by simp only [ibufBase, Config.ibufCap] at *; omega)) h.memCanonical
      resultWritten := fun i hi => by
        simpa only [obufByte, Memory.read_write_other _ _ (hother i)] using h.resultWritten i hi }

theorem setDin_inv {s : State} (h : s.Inv) (j : Fin 2) (d : DataWord) : (setDin j d s).Inv :=
  inv_of_same h (by simp) (by simp) (by simp) (by simp [sameInfo])

theorem returnByte_inv {s : State} (h : s.Inv) (v : Byte) : (returnByte v s).Inv :=
  inv_of_same h rfl rfl rfl ⟨rfl, rfl, rfl⟩

theorem setCrcout_inv {s : State} (h : s.Inv) (v : Byte) : { s with crcout := v }.Inv :=
  inv_of_same h rfl rfl rfl ⟨rfl, rfl, rfl⟩

theorem setPending_inv {s : State} (h : s.Inv) (acts : List HostAction) : { s with pending := acts }.Inv :=
  inv_of_same h rfl rfl rfl ⟨rfl, rfl, rfl⟩

theorem exec_keeps_inv {i : Instr} {s t : State} (hs : s.Inv) (h : exec i s = .next t) : t.Inv := by
  obtain ⟨-, ⟨c, -, rfl⟩ | ⟨v, -, rfl⟩ | ⟨len, m, -, rfl⟩ | ⟨len, bs, -, heven, hcap, rfl⟩ | ⟨len, -, rfl⟩ |
    ⟨cmd, bs, -, htwo, rfl⟩ | ⟨cmd, nw, bs, -, hlen, rfl⟩ | ⟨cmd, e, -, he, rfl⟩⟩ := exec_cases h
  · exact raiseFault_inv hs c
  · exact complete_inv (setCrcout_inv hs v) _
  · exact complete_inv hs m
  · exact complete_inv (putResult_inv hs (.inr ⟨by omega, hcap⟩)) _
  · exact complete_inv (clearOlen_inv hs) _
  · exact complete_inv (putResult_inv hs (.inr (by rw [htwo]; decide))) _
  · exact complete_inv (putResult_inv hs (hlen.imp_right fun h8 => by rw [h8]; decide)) _
  · exact complete_inv (setInfo_inv hs he) _

theorem perform_keeps_inv {act : HostAction} {s t : State} (hs : s.Inv) (h : perform act s = .next t) : t.Inv := by
  cases act with
  | rd a =>
    obtain ⟨v, rfl | rfl⟩ := hostRead_cases h
    · exact returnByte_inv (raiseFault_inv hs _) v
    · exact returnByte_inv hs v
  | wr a v =>
    obtain rfl | ⟨k, hk, rfl⟩ | ⟨j, d, rfl⟩ := hostWrite_cases h
    · exact raiseFault_inv hs _
    · exact writeIbuf_inv hs hk v
    · exact setDin_inv hs j d
  | issue rq =>
    obtain ⟨i, -, hi⟩ | ⟨r, -, -, rfl⟩ := issue_next.1 h
    · exact exec_keeps_inv hs hi
    · exact raiseFault_inv hs _
  | reset =>
    obtain rfl := next_inj.1 h
    exact hostReset_inv s

/-- Settles O20: each update that a host action makes keeps the invariant. -/
theorem stepKeepsTheInvariant : Obligations.StepKeepsTheInvariant := by
  intro s t hs h
  obtain ⟨-, rfl⟩ | ⟨act, rest, -, hact⟩ := step_cases h
  · exact hs
  · exact perform_keeps_inv (setPending_inv hs rest) hact

/-- Settles O19. -/
theorem resetMeetsTheInvariant : Obligations.ResetMeetsTheInvariant := reset_inv

end Sys2Proof.Machine

/-! ### What a request and an access leave unchanged -/

namespace Sys2Proof.Machine

/-- A result goes to OBUF, so every byte of IBUF is as before (R24, R51). -/
theorem ibufByte_putResult (bs : List Byte) (s : State) {k : Nat} (hk : k < Config.ibufCap) :
    ibufByte (putResult bs s) k = ibufByte s k :=
  Memory.read_writeBytes_outside _ _ _ (.inl (by simp only [ibufBase, obufBase, Config.ibufCap] at *; omega))

/-- What a result of `n` bytes does: OLEN is `n`, and no byte but OBUF[0 .. n-1] changes. -/
theorem putResult_row {bs : List Byte} {n : Nat} (hlen : bs.length = n) (hcap : n ≤ Config.obufCap) (s : State) :
    (putResult bs s).olen.toNat = n ∧ sameBytesButObufBelow n s (putResult bs s) := by
  subst hlen
  exact ⟨(putResult_result hcap s).1, fun a ha => Memory.read_writeBytes_outside _ _ _ ha, rfl, rfl⟩

/-- No request writes IBUF or DIN, or reaches the host's side (R21 to R23). -/
theorem exec_keeps_inputs {i : Instr} {s t : State} (h : exec i s = .next t) :
    sameInputs s t ∧ sameHostSide s t := by
  have result : ∀ bs, sameInputs s (putResult bs s) :=
    fun bs => ⟨fun _ hk => ibufByte_putResult bs s hk, rfl, rfl⟩
  have unchanged : sameInputs s s := ⟨fun _ _ => rfl, rfl, rfl⟩
  obtain ⟨-, ⟨c, -, rfl⟩ | ⟨v, -, rfl⟩ | ⟨len, m, -, rfl⟩ | ⟨len, bs, -, -, -, rfl⟩ | ⟨len, -, rfl⟩ |
    ⟨cmd, bs, -, -, rfl⟩ | ⟨cmd, nw, bs, -, -, rfl⟩ | ⟨cmd, e, -, -, rfl⟩⟩ := exec_cases h
  · exact ⟨unchanged, rfl, rfl⟩
  · exact ⟨unchanged, rfl, rfl⟩
  · exact ⟨unchanged, rfl, rfl⟩
  · exact ⟨result bs, rfl, rfl⟩
  · exact ⟨unchanged, rfl, rfl⟩
  · exact ⟨result bs, rfl, rfl⟩
  · exact ⟨result bs, rfl, rfl⟩
  · exact ⟨unchanged, rfl, rfl⟩

/-- Settles O43. -/
theorem noRequestWritesItsInputs : Obligations.NoRequestWritesItsInputs := fun _ _ _ h => exec_keeps_inputs h

/-- No host action touches the actions still to come (R21). -/
theorem perform_pending {act : HostAction} {s t : State} (h : perform act s = .next t) : t.pending = s.pending := by
  cases act with
  | rd a => obtain ⟨v, rfl | rfl⟩ := hostRead_cases h <;> rfl
  | wr a v =>
    obtain rfl | ⟨k, -, rfl⟩ | ⟨j, d, rfl⟩ := hostWrite_cases h
    · rfl
    · rfl
    · exact setDin_pending j d s
  | issue rq =>
    obtain ⟨i, -, hi⟩ | ⟨r, -, -, rfl⟩ := issue_next.1 h
    · obtain ⟨-, hpending, -⟩ := exec_keeps_inputs hi
      exact hpending
    · rfl
  | reset =>
    obtain rfl := next_inj.1 h
    rfl

/-- Settles O11: the step takes the first action off, and performing it leaves the others. -/
theorem hostActionsRunInOrder : Obligations.HostActionsRunInOrder := by
  intro s t h
  obtain ⟨hnone, rfl⟩ | ⟨act, rest, hpending, hact⟩ := step_cases h
  · rw [hnone, List.tail_nil]
  · rw [perform_pending hact, hpending, List.tail_cons]

end Sys2Proof.Machine

/-! ### VALID -/

namespace Sys2Proof.Machine

/-- No host read, host write or issue clears VALID (R28). -/
theorem perform_keeps_valid {act : HostAction} {s t : State} (h : perform act s = .next t) (hact : act ≠ .reset)
    (hs : statusValid s.status = true) : statusValid t.status = true := by
  cases act with
  | rd a => obtain ⟨v, rfl | rfl⟩ := hostRead_cases h <;> simpa using hs
  | wr a v => obtain rfl | ⟨k, -, rfl⟩ | ⟨j, d, rfl⟩ := hostWrite_cases h <;> simpa using hs
  | issue rq =>
    obtain ⟨c, rfl⟩ | ⟨-, m, ht⟩ := issue_faults_or_completes h
    · simpa using hs
    · simp [ht]
  | reset => exact absurd rfl hact

/-- Settles O41. -/
theorem validIsSetByEveryCompletedRequest : Obligations.ValidIsSetByEveryCompletedRequest := by
  refine ⟨fun s t rq h => ?_, fun s t h hs ht => ?_⟩
  · rw [step_queue_issue] at h
    obtain ⟨c, rfl⟩ | ⟨ha, m, hst⟩ := issue_faults_or_completes h
    · simp
    · simp [ha, hst]
  · obtain ⟨-, rfl⟩ | ⟨act, rest, hpending, hact⟩ := step_cases h
    · simp [hs] at ht
    · by_cases hreset : act = .reset
      · exact ⟨rest, by rw [hpending, hreset]⟩
      · have := perform_keeps_valid hact hreset hs
        simp [ht] at this

end Sys2Proof.Machine

/-! ### The row of each request (R37), and CSERR (R29) -/

namespace Sys2Proof.Machine

/-- The groups that `validate` and `strip` read are the bytes of IBUF, in order. -/
theorem ibufGroups_eq_map {s : State} {len : BitVec 6} {bs : List Byte} (h : ibufGroups s len = some bs) :
    ∃ b : Nat → Byte, (∀ k, k < 3 * (len.toNat / 3) → ibufByte s k = some (b k)) ∧
      bs = (List.range (3 * (len.toNat / 3))).map b := by
  obtain ⟨hlen, hread⟩ := (Memory.readBytes_eq_some _ _ _ _).1 h
  have hb : ∀ k, k < 3 * (len.toNat / 3) → ibufByte s k = some (bs.getD k 0) := fun k hk => by
    rw [ibufByte, hread k hk, List.getD_eq_getElem?_getD, List.getElem?_eq_getElem (by omega), Option.getD_some]
  exact ⟨fun k => bs.getD k 0, hb, Option.some.inj (h.symm.trans (Memory.readBytes_of_forall _ _ _ _ hb))⟩

/-- `someGroupFails` where the bytes of the complete groups are known. -/
theorem someGroupFails_iff {s : State} {len : BitVec 6} {b : Nat → Byte}
    (hb : ∀ k, k < 3 * (len.toNat / 3) → ibufByte s k = some (b k)) :
    someGroupFails s len ↔ ∃ g, g < len.toNat / 3 ∧ checksum (b (3 * g)) (b (3 * g + 1)) ≠ b (3 * g + 2) := by
  refine exists_congr fun g => and_congr_right fun hg => ?_
  rw [hb _ (by omega), hb _ (by omega), hb _ (by omega)]
  simp

/-- R95: the group check fails exactly where some complete group of IBUF fails. -/
theorem groupsOk_eq_false_iff {s : State} {len : BitVec 6} {bs : List Byte} (h : ibufGroups s len = some bs) :
    groupsOk bs = false ↔ someGroupFails s len := by
  obtain ⟨b, hb, rfl⟩ := ibufGroups_eq_map h
  rw [someGroupFails_iff hb, ← Bool.not_eq_true, groupsOk_iff]
  push Not
  rfl

/-- A completed request leaves FAULT, FCAUSE and the reserved bits as they were (R28, R29). -/
theorem completedStatus_statusCompleted (st : Byte) (m : Bool) : completedStatus st (statusCompleted st m) m :=
  completedStatus_fields st m

/-- Settles O44: a fault is `raiseFault` (R142), and each request that completes has its row. -/
theorem requestWritesOnlyItsRow : Obligations.RequestWritesOnlyItsRow := by
  refine ⟨fun s t rq h ht => ?_, fun s t i h ht => ?_⟩
  · obtain ⟨c, rfl⟩ := issue_faulted h ht
    exact ⟨rfl, statusValid_raised _ c, statusCserr_raised _ c, statusReserved_raised _ c⟩
  · obtain ⟨hinputs, hhost⟩ := exec_keeps_inputs h
    refine ⟨hinputs, hhost, ?_⟩
    have hfault : ∀ c, t ≠ raiseFault c s := by rintro c rfl; simp at ht
    have hstatus := completedStatus_statusCompleted s.status
    cases i with
    | crc =>
      obtain ⟨-, w, -, rfl⟩ := execCrc_next.1 h
      exact ⟨false, hstatus _, rfl, ⟨fun _ => rfl, rfl, rfl⟩, rfl, rfl, rfl, rfl⟩
    | validate len =>
      obtain ⟨-, ⟨-, b, hb, rfl⟩ | ⟨-, hc⟩⟩ := execValidate_next.1 h
      · exact ⟨!groupsOk b, hstatus _, by rw [Bool.not_eq_true', groupsOk_eq_false_iff hb], ⟨fun _ => rfl, rfl, rfl⟩,
          rfl, rfl, rfl, rfl, rfl⟩
      · exact absurd hc (hfault _)
    | strip len =>
      obtain ⟨-, ⟨hlen, b, hb, rfl⟩ | ⟨-, hc⟩⟩ := execStrip_next.1 h
      · have hfails := groupsOk_eq_false_iff hb
        have hrow := putResult_row (stripBytes_length (ibufGroups_length hb))
          (by simp only [Config.ibufCap, Config.obufCap] at *; omega) s
        cases hok : groupsOk b with
        | true => exact ⟨false, hstatus _, by simp [← hfails, hok], rfl, ⟨rfl, rfl, rfl⟩, fun _ => hrow, by simp⟩
        | false =>
          exact ⟨true, hstatus _, by simp [← hfails, hok], rfl, ⟨rfl, rfl, rfl⟩, by simp,
            fun _ => ⟨rfl, fun _ => rfl, rfl, rfl⟩⟩
      · exact absurd hc (hfault _)
    | frame cmd =>
      obtain ⟨-, ⟨e, -, rfl⟩ | ⟨-, hc⟩⟩ := execFrame_next.1 h
      · obtain ⟨-, hbytes⟩ := putResult_row (frameBytes_length e.code []) (by decide) s
        exact ⟨false, hstatus _, rfl, rfl, hbytes, rfl, rfl, rfl, rfl⟩
      · exact absurd hc (hfault _)
    | framed cmd nw =>
      obtain ⟨-, ⟨e, -, ⟨hnw, ws, hws, rfl⟩ | ⟨-, hc⟩⟩ | ⟨-, hc⟩⟩ := execFramed_next.1 h
      · have hle : nw.toNat ≤ 2 := by rcases hnw with rfl | rfl <;> decide
        have hlen : (frameBytes e.code ws).length = 2 + 3 * nw.toNat := by
          rw [frameBytes_length, dinWords_length hle hws]
        obtain ⟨holen, hbytes⟩ := putResult_row hlen (by simp only [Config.obufCap]; omega) s
        exact ⟨false, hstatus _, rfl, holen, hbytes, rfl, rfl, rfl, rfl⟩
      · exact absurd hc (hfault _)
      · exact absurd hc (hfault _)
    | lookup cmd =>
      obtain ⟨-, ⟨e, -, rfl⟩ | ⟨-, hc⟩⟩ := execLookup_next.1 h
      · exact ⟨false, hstatus _, rfl, ⟨fun _ => rfl, rfl, rfl⟩, rfl, rfl⟩
      · exact absurd hc (hfault _)

/-- R29: CSERR after a request that completes. -/
theorem exec_cserr {i : Instr} {s t : State} (h : exec i s = .next t) (ht : t.accepting = true) :
    statusCserr t.status = true ↔ ∃ len, (i = .validate len ∨ i = .strip len) ∧ someGroupFails s len := by
  obtain ⟨-, -, m, ⟨-, hcserr, -⟩, hrow⟩ := requestWritesOnlyItsRow.2 s t i h ht
  rw [hcserr]
  cases i with
  | validate len => simpa using hrow.1
  | strip len => simpa using hrow.1
  | crc | frame | framed | lookup => simp [hrow.1]

/-- Settles O42. -/
theorem cserrDescribesTheLastCompletedRequest : Obligations.CserrDescribesTheLastCompletedRequest := by
  refine fun s t rq h => ⟨fun ht => ?_, fun ht => ?_⟩
  · obtain ⟨i, hi, hexec⟩ | ⟨r, -, -, rfl⟩ := issue_next.1 h
    · simp only [hi, Except.ok.injEq]
      exact exec_cserr hexec ht
    · simp at ht
  · obtain ⟨c, rfl⟩ := issue_faulted h ht
    exact statusCserr_raised _ c

end Sys2Proof.Machine

/-! ### Unwritten halves of DIN (R35, R65) -/

namespace Sys2Proof.Machine

/-- The state with other data-word registers. -/
def replaceDin (d0 d1 : DataWord) (s : State) : State := { s with din0 := d0, din1 := d1 }

/-- States that differ at most in unwritten halves of DIN are one state with agreeing data-word registers put in. -/
theorem sameButUnwrittenDin_iff {s s' : State} : sameButUnwrittenDin s s' ↔
    ∃ d0 d1, s.din0.agrees d0 ∧ s.din1.agrees d1 ∧ s' = replaceDin d0 d1 s := by
  constructor
  · rintro ⟨h0, h1, hsame⟩
    refine ⟨_, _, h0, h1, ?_⟩
    rw [← hsame]
    rfl
  · rintro ⟨d0, d1, h0, h1, rfl⟩
    exact ⟨h0, h1, rfl⟩

/-- An update that neither writes DIN nor depends on it keeps two such states so. -/
theorem sameButUnwrittenDin_map {s s' : State} (h : sameButUnwrittenDin s s') (f : State → State)
    (hcomm : ∀ d0 d1, f (replaceDin d0 d1 s) = replaceDin d0 d1 (f s)) (hdin : sameDin s (f s)) :
    sameButUnwrittenDin (f s) (f s') := by
  obtain ⟨d0, d1, h0, h1, rfl⟩ := sameButUnwrittenDin_iff.1 h
  exact sameButUnwrittenDin_iff.2 ⟨d0, d1, by rwa [hdin.1], by rwa [hdin.2], hcomm d0 d1⟩

theorem sameButUnwrittenDin_dinReg {s s' : State} (h : sameButUnwrittenDin s s') (j : Fin 2) :
    (dinReg s j).agrees (dinReg s' j) := by
  obtain ⟨h0, h1, -⟩ := h
  fin_cases j
  · exact h0
  · exact h1

theorem sameButUnwrittenDin_setDin {s s' : State} (h : sameButUnwrittenDin s s') (j : Fin 2) {d d' : DataWord}
    (hd : d.agrees d') : sameButUnwrittenDin (setDin j d s) (setDin j d' s') := by
  obtain ⟨d0, d1, h0, h1, rfl⟩ := sameButUnwrittenDin_iff.1 h
  fin_cases j
  · exact ⟨hd, h1, rfl⟩
  · exact ⟨h0, hd, rfl⟩

theorem agrees_writeHi {d d' : DataWord} (h : d.agrees d') (v : Byte) : (d.writeHi v).agrees (d'.writeHi v) := by
  obtain ⟨-, hlo, -, hloByte⟩ := h
  exact ⟨rfl, hlo, by simp, by simpa using hloByte⟩

theorem agrees_writeLo {d d' : DataWord} (h : d.agrees d') (v : Byte) : (d.writeLo v).agrees (d'.writeLo v) := by
  obtain ⟨hhi, -, hhiByte, -⟩ := h
  exact ⟨hhi, rfl, by simpa using hhiByte, by simp⟩

/-! #### Every read sees the same -/

section
variable {s s' : State} (h : sameButUnwrittenDin s s')
include h

theorem dinHi_of_sameButUnwrittenDin (j : Fin 2) : dinHi s' j = dinHi s j := by
  obtain ⟨hmark, -, hbyte, -⟩ := sameButUnwrittenDin_dinReg h j
  unfold dinHi
  rw [hmark]
  split
  · rw [hbyte ‹_›]
  · rfl

theorem dinLo_of_sameButUnwrittenDin (j : Fin 2) : dinLo s' j = dinLo s j := by
  obtain ⟨-, hmark, -, hbyte⟩ := sameButUnwrittenDin_dinReg h j
  unfold dinLo
  rw [hmark]
  split
  · rw [hbyte ‹_›]
  · rfl

theorem dinWord_of_sameButUnwrittenDin (j : Fin 2) : dinWord s' j = dinWord s j := by
  ext w
  rw [dinWord_eq_some, dinWord_eq_some, dinHi_of_sameButUnwrittenDin h, dinLo_of_sameButUnwrittenDin h]

theorem dinWords_of_sameButUnwrittenDin (n : Nat) : dinWords s' n = dinWords s n := by
  match n with
  | 0 => rfl
  | 1 => simp only [dinWords, dinWord_of_sameButUnwrittenDin h]
  | n + 2 => simp only [dinWords, dinWord_of_sameButUnwrittenDin h]

theorem mem_of_sameButUnwrittenDin : s'.mem = s.mem := by
  obtain ⟨d0, d1, -, -, rfl⟩ := sameButUnwrittenDin_iff.1 h
  rfl

theorem status_of_sameButUnwrittenDin : s'.status = s.status := by
  obtain ⟨d0, d1, -, -, rfl⟩ := sameButUnwrittenDin_iff.1 h
  rfl

theorem pending_of_sameButUnwrittenDin : s'.pending = s.pending := by
  obtain ⟨d0, d1, -, -, rfl⟩ := sameButUnwrittenDin_iff.1 h
  rfl

theorem ibufGroups_of_sameButUnwrittenDin (len : BitVec 6) : ibufGroups s' len = ibufGroups s len := by
  rw [ibufGroups, ibufGroups, mem_of_sameButUnwrittenDin h]

theorem hostContent_of_sameButUnwrittenDin (r : HostReg) : hostContent s' r = hostContent s r := by
  cases r with
  | dinHi j => exact dinHi_of_sameButUnwrittenDin h j
  | dinLo j => exact dinLo_of_sameButUnwrittenDin h j
  | ibuf | obuf | crcout | olen | status | infoCodeHi | infoCodeLo | infoRsplen | infoNw =>
    obtain ⟨d0, d1, -, -, rfl⟩ := sameButUnwrittenDin_iff.1 h
    rfl

end

/-! #### Answers that agree -/

/-- Two outcomes are the same fault, or next states that differ at most in unwritten halves of DIN. -/
inductive AnswersAgree : Host.Outcome State Fault Refusal → Host.Outcome State Fault Refusal → Prop where
  | next {t t' : State} (h : sameButUnwrittenDin t t') : AnswersAgree (.next t) (.next t')
  | fault (r : Fault) : AnswersAgree (.fault r) (.fault r)

theorem answersAgree_next {o : Host.Outcome State Fault Refusal} {t : State} (h : AnswersAgree (.next t) o) :
    ∃ t', o = .next t' ∧ sameButUnwrittenDin t t' := by
  cases h with
  | next h => exact ⟨_, rfl, h⟩

theorem answersAgree_fault {o : Host.Outcome State Fault Refusal} {r : Fault} (h : AnswersAgree (.fault r) o) :
    o = .fault r := by
  cases h
  rfl

theorem answersAgree_withInput {α : Type} {o o' : Option α} {k k' : α → Host.Outcome State Fault Refusal}
    (ho : o' = o) (hk : ∀ v, AnswersAgree (k v) (k' v)) : AnswersAgree (withInput o k) (withInput o' k') := by
  subst ho
  cases o' with
  | none => exact .fault _
  | some v => exact hk v

section
variable {s s' : State} (h : sameButUnwrittenDin s s')
include h

theorem answersAgree_raiseFault (c : Cause) : AnswersAgree (.next (raiseFault c s)) (.next (raiseFault c s')) :=
  .next (sameButUnwrittenDin_map h (raiseFault c) (fun _ _ => rfl) ⟨rfl, rfl⟩)

theorem answersAgree_accept {k k' : Host.Outcome State Fault Refusal} (hk : AnswersAgree k k') :
    AnswersAgree (accept s k) (accept s' k') := by
  unfold accept
  rw [status_of_sameButUnwrittenDin h]
  split
  · exact .fault _
  · exact hk

theorem answersAgree_withLen (len : BitVec 6) {k k' : Host.Outcome State Fault Refusal} (hk : AnswersAgree k k') :
    AnswersAgree (withLen len s k) (withLen len s' k') := by
  unfold withLen
  split
  · exact hk
  · exact answersAgree_raiseFault h _

theorem answersAgree_withCommand (cmd : BitVec 4) {k k' : CommandInfo → Host.Outcome State Fault Refusal}
    (hk : ∀ e, AnswersAgree (k e) (k' e)) : AnswersAgree (withCommand cmd s k) (withCommand cmd s' k') := by
  unfold withCommand
  cases cmdTab cmd.toNat with
  | none => exact answersAgree_raiseFault h _
  | some e => exact hk e

theorem answersAgree_complete_putResult (m : Bool) (bs : List Byte) :
    AnswersAgree (.next (complete m (putResult bs s))) (.next (complete m (putResult bs s'))) :=
  .next (sameButUnwrittenDin_map h (fun u => complete m (putResult bs u)) (fun _ _ => rfl) ⟨rfl, rfl⟩)

theorem answersAgree_exec (i : Instr) : AnswersAgree (exec i s) (exec i s') := by
  cases i with
  | crc =>
    refine answersAgree_accept h (answersAgree_withInput (dinWord_of_sameButUnwrittenDin h 0) fun w => .next ?_)
    exact sameButUnwrittenDin_map h (fun u => complete false { u with crcout := checksum (hiByte w) (loByte w) })
      (fun _ _ => rfl) ⟨rfl, rfl⟩
  | validate len =>
    refine answersAgree_accept h (answersAgree_withLen h len
      (answersAgree_withInput (ibufGroups_of_sameButUnwrittenDin h len) fun b => .next ?_))
    exact sameButUnwrittenDin_map h (complete (!groupsOk b)) (fun _ _ => rfl) ⟨rfl, rfl⟩
  | strip len =>
    refine answersAgree_accept h (answersAgree_withLen h len
      (answersAgree_withInput (ibufGroups_of_sameButUnwrittenDin h len) fun b => ?_))
    split
    · exact answersAgree_complete_putResult h _ _
    · exact .next (sameButUnwrittenDin_map h (fun u => complete true { u with olen := 0 }) (fun _ _ => rfl) ⟨rfl, rfl⟩)
  | frame cmd =>
    exact answersAgree_accept h (answersAgree_withCommand h cmd fun e => answersAgree_complete_putResult h _ _)
  | framed cmd nw =>
    refine answersAgree_accept h (answersAgree_withCommand h cmd fun e => ?_)
    split
    · exact answersAgree_withInput (dinWords_of_sameButUnwrittenDin h _) fun ws => answersAgree_complete_putResult h _ _
    · exact answersAgree_raiseFault h _
  | lookup cmd =>
    refine answersAgree_accept h (answersAgree_withCommand h cmd fun e => .next ?_)
    exact sameButUnwrittenDin_map h
      (fun u => complete false { u with infoCode := e.code, infoRsplen := e.rsplen, infoNw := e.nw })
      (fun _ _ => rfl) ⟨rfl, rfl⟩

theorem answersAgree_hostRead (a : HAddr) : AnswersAgree (hostRead a s) (hostRead a s') := by
  unfold hostRead
  cases hostReg a with
  | none =>
    exact .next (sameButUnwrittenDin_map h (fun u => returnByte 0x00 (raiseFault .illegalAccess u)) (fun _ _ => rfl)
      ⟨rfl, rfl⟩)
  | some r =>
    exact answersAgree_withInput (hostContent_of_sameButUnwrittenDin h r) fun v =>
      .next (sameButUnwrittenDin_map h (returnByte v) (fun _ _ => rfl) ⟨rfl, rfl⟩)

theorem answersAgree_hostWrite (a : HAddr) (v : Byte) : AnswersAgree (hostWrite a v s) (hostWrite a v s') := by
  unfold hostWrite
  cases hostReg a with
  | none => exact answersAgree_raiseFault h _
  | some r =>
    cases r with
    | ibuf i =>
      exact .next (sameButUnwrittenDin_map h (fun u => { u with mem := Memory.write u.mem (ibufBase + i) v })
        (fun _ _ => rfl) ⟨rfl, rfl⟩)
    | dinHi j =>
      exact .next (sameButUnwrittenDin_setDin h j (agrees_writeHi (sameButUnwrittenDin_dinReg h j) v))
    | dinLo j =>
      exact .next (sameButUnwrittenDin_setDin h j (agrees_writeLo (sameButUnwrittenDin_dinReg h j) v))
    | obuf | crcout | olen | status | infoCodeHi | infoCodeLo | infoRsplen | infoNw => exact answersAgree_raiseFault h _

theorem answersAgree_issue (rq : RequestWord) : AnswersAgree (issue rq s) (issue rq s') := by
  unfold issue
  cases decode rq with
  | ok i => exact answersAgree_exec h i
  | error r => exact answersAgree_accept h (answersAgree_raiseFault h _)

theorem answersAgree_perform (act : HostAction) : AnswersAgree (perform act s) (perform act s') := by
  cases act with
  | rd a => exact answersAgree_hostRead h a
  | wr a v => exact answersAgree_hostWrite h a v
  | issue rq => exact answersAgree_issue h rq
  | reset =>
    have hreset : hostReset s' = hostReset s := by
      obtain ⟨d0, d1, -, -, rfl⟩ := sameButUnwrittenDin_iff.1 h
      rfl
    have agrees_self : ∀ d : DataWord, d.agrees d := fun d => ⟨rfl, rfl, fun _ => rfl, fun _ => rfl⟩
    refine .next ?_
    rw [hreset]
    exact ⟨agrees_self _, agrees_self _, rfl⟩

theorem answersAgree_step : AnswersAgree (step s) (step s') := by
  unfold step performNext
  rw [pending_of_sameButUnwrittenDin h]
  cases s.pending with
  | nil => exact .next h
  | cons act rest =>
    refine answersAgree_perform ?_ act
    exact sameButUnwrittenDin_map h (fun u => { u with pending := rest }) (fun _ _ => rfl) ⟨rfl, rfl⟩

end

/-- Settles O51: each operation is taken on both states at once. -/
theorem unwrittenDinIsNeverSeen : Obligations.UnwrittenDinIsNeverSeen := by
  intro s s' h
  have hstep := answersAgree_step h
  exact ⟨fun t ht => answersAgree_next (ht ▸ hstep), fun r hr => answersAgree_fault (hr ▸ hstep)⟩

end Sys2Proof.Machine

/-! ### Reset, and several blocks -/

namespace Sys2Proof.Machine

/-- Settles O17: after reset the byte store lists no byte, and no half of DIN is marked written. -/
theorem resetLeavesTheStatedValues : Obligations.ResetLeavesTheStatedValues := by
  have hbyte : ∀ a, Memory.read State.reset.mem a = none := Memory.read_nil
  have hdin : ∀ j, dinReg State.reset j = DataWord.reset := fun j => by fin_cases j <;> rfl
  refine ⟨rfl, rfl, rfl, rfl, rfl, rfl, fun k _ => hbyte _, fun k _ => hbyte _, fun j => ⟨?_, ?_⟩⟩
  · rw [dinHi_eq_none, hdin]; rfl
  · rw [dinLo_eq_none, hdin]; rfl

/-- A step of block `k` puts the answer of that block's own step in its place. -/
theorem stepBlock_next {blocks : List State} {k : Nat} {s s' : State} (hk : blocks[k]? = some s)
    (h : step s = .next s') : stepBlock blocks k = .next (blocks.set k s') := by
  simp [stepBlock, hk, h]

theorem stepBlock_fault {blocks : List State} {k : Nat} {s : State} {r : Fault} (hk : blocks[k]? = some s)
    (h : step s = .fault r) : stepBlock blocks k = .fault r := by
  simp [stepBlock, hk, h]

/-- Settles O50. -/
theorem blocksShareNoState : Obligations.BlocksShareNoState := by
  refine fun blocks k s hk => ⟨fun s' h => ?_, fun r h => stepBlock_fault hk h⟩
  obtain ⟨hlt, -⟩ := List.getElem?_eq_some_iff.1 hk
  exact ⟨blocks.set k s', stepBlock_next hk h, List.getElem?_set_self hlt,
    fun j hj => List.getElem?_set_ne hj.symm⟩

end Sys2Proof.Machine

/-! ### The host's accesses by the kind of address (R51 to R56) -/

namespace Sys2Proof.Machine

/-- R51: `IBUF[k]` stands at address `k`. -/
theorem hostReg_ibufAddr {k : Nat} (hk : k < 32) : hostReg (BitVec.ofNat 7 k) = some (.ibuf k) := by
  have hn : (BitVec.ofNat 7 k).toNat = k := by rw [BitVec.toNat_ofNat]; omega
  rw [hostReg, hn, if_pos hk]

/-- R51: `OBUF[k]` stands at address `0x20 + k`. -/
theorem hostReg_obufAddr {k : Nat} (hk : k < 20) : hostReg (BitVec.ofNat 7 (0x20 + k)) = some (.obuf k) := by
  have hn : (BitVec.ofNat 7 (0x20 + k)).toNat = 0x20 + k := by rw [BitVec.toNat_ofNat]; omega
  rw [hostReg, hn, if_neg (by omega), if_pos (by omega), Nat.add_sub_cancel_left]

/-- R51: the high half of `DIN[j]` stands at address `0x40 + 2j`. -/
theorem hostReg_dinHiAddr (j : Fin 2) : hostReg (BitVec.ofNat 7 (0x40 + 2 * j.val)) = some (.dinHi j) := by
  revert j; decide

/-- R51: the low half of `DIN[j]` stands at address `0x41 + 2j`. -/
theorem hostReg_dinLoAddr (j : Fin 2) : hostReg (BitVec.ofNat 7 (0x41 + 2 * j.val)) = some (.dinLo j) := by
  revert j; decide

/-- The registers that R51 marks RO. -/
def HostReg.isReadOnly : HostReg → Bool
  | .ibuf _ | .dinHi _ | .dinLo _ => false
  | .obuf _ | .crcout | .olen | .status | .infoCodeHi | .infoCodeLo | .infoRsplen | .infoNw => true

/-- A host write stores nothing exactly where the register is read-only. -/
theorem hostStore_eq_none {v : Byte} {s : State} {r : HostReg} : hostStore v s r = none ↔ r.isReadOnly = true := by
  cases r <;> simp [hostStore, HostReg.isReadOnly]

/-- The map of R51 names no register exactly at the unmapped addresses. -/
theorem hostReg_eq_none {a : HAddr} : hostReg a = none ↔ unmappedAddr a = true := by
  revert a; decide

theorem readOnlyAddr_iff {a : HAddr} : readOnlyAddr a = true ↔ ∃ r, hostReg a = some r ∧ r.isReadOnly = true := by
  have hmap : ∀ a : HAddr, readOnlyAddr a = (hostReg a).any HostReg.isReadOnly := by decide
  rw [hmap, Option.any_eq_true]

/-! #### Accesses of a mapped address -/

section
variable {s : State} {a : HAddr} {r : HostReg} (hreg : hostReg a = some r)
include hreg

/-- R52: a read of a byte that has a content hands the host that content. -/
theorem step_read_of_content {v : Byte} (hv : hostContent s r = some v) :
    step (s.queue (.rd a)) = .next { s with returned := v :: s.returned } :=
  hostRead_next.2 (.inr ⟨r, v, hreg, hv, rfl⟩)

/-- R65: a read of an unwritten byte stops. -/
theorem step_read_of_unwritten (hv : hostContent s r = none) : step (s.queue (.rd a)) = .fault .unwrittenRead := by
  simp only [step_queue, perform, hostRead, hreg, hv, withInput]

/-- R53: a write that a register stores answers the state with the byte stored. -/
theorem step_write_of_store {v : Byte} {t : State} (ht : hostStore v s r = some t) :
    step (s.queue (.wr a v)) = .next t :=
  by
  rw [step_queue]
  exact hostWrite_next.2 (.inr (by rw [hreg, Option.bind_some, ht]))

end

/-- Settles O13: the map of R51 names each register, and a read hands out its content. -/
theorem readReturnsTheMappedContent : Obligations.ReadReturnsTheMappedContent := fun _ =>
  ⟨fun _ _ hk hv => step_read_of_content (hostReg_ibufAddr hk) hv,
    fun _ _ hk hv => step_read_of_content (hostReg_obufAddr hk) hv,
    fun _ hv => step_read_of_content (hostReg_dinHiAddr 0) hv,
    fun _ hv => step_read_of_content (hostReg_dinLoAddr 0) hv,
    fun _ hv => step_read_of_content (hostReg_dinHiAddr 1) hv,
    fun _ hv => step_read_of_content (hostReg_dinLoAddr 1) hv,
    step_read_of_content (r := .crcout) rfl rfl,
    step_read_of_content (r := .olen) rfl rfl,
    step_read_of_content (r := .status) rfl rfl,
    step_read_of_content (r := .infoCodeHi) rfl rfl,
    step_read_of_content (r := .infoCodeLo) rfl rfl,
    step_read_of_content (r := .infoRsplen) rfl rfl,
    step_read_of_content (r := .infoNw) rfl rfl⟩

/-! #### Illegal accesses -/

/-- R142: the fault action records its cause in STATUS. -/
theorem raisedStatus_statusRaised (st : Byte) (c : Cause) : raisedStatus st (statusRaised st c) (causeCode c) :=
  statusRaised_fields st c

/-- R56: no write of an unmapped or read-only address is stored. -/
theorem hostStore_of_illegal {a : HAddr} (ha : unmappedAddr a = true ∨ readOnlyAddr a = true) (v : Byte) (s : State) :
    (hostReg a).bind (hostStore v s) = none := by
  obtain hunmapped | hro := ha
  · rw [hostReg_eq_none.2 hunmapped, Option.bind_none]
  · obtain ⟨r, hreg, hr⟩ := readOnlyAddr_iff.1 hro
    rw [hreg, Option.bind_some, hostStore_eq_none.2 hr]

/-- Settles O15. -/
theorem illegalAccessTakesItsFault : Obligations.IllegalAccessTakesItsFault := by
  refine fun s a => ⟨fun ha => ?_, fun v ha => ?_⟩
  · exact ⟨returnByte 0x00 (raiseFault .illegalAccess s), hostRead_next.2 (.inl ⟨hostReg_eq_none.2 ha, rfl⟩),
      raisedStatus_statusRaised s.status .illegalAccess, rfl⟩
  · exact ⟨raiseFault .illegalAccess s, hostWrite_next.2 (.inl ⟨hostStore_of_illegal ha v s, rfl⟩),
      raisedStatus_statusRaised s.status .illegalAccess, rfl⟩

/-! #### Writes -/

/-- An update of `DIN[j]` leaves the other word, every byte, every register and the host's side. -/
theorem setDin_frame (j : Fin 2) (d : DataWord) (s : State) :
    (∀ k, k ≠ j → dinReg (setDin j d s) k = dinReg s k) ∧
      (∀ a, Memory.read (setDin j d s).mem a = Memory.read s.mem a) ∧
      sameRegisters s (setDin j d s) ∧ sameHostSide s (setDin j d s) :=
  ⟨fun _ hk => dinReg_setDin_other d s hk, by simp, by simp [sameRegisters, sameInfo], by simp [sameHostSide]⟩

/-- Settles O16: the register stores the byte (R53, R54), and each store has its frame. -/
theorem writeChangesExactlyOneByte : Obligations.WriteChangesExactlyOneByte := by
  refine fun s v => ⟨fun k hk => ?_, fun j => ?_, fun j => ?_⟩
  · exact ⟨{ s with mem := Memory.write s.mem (ibufBase + k) v }, step_write_of_store (hostReg_ibufAddr hk) rfl,
      Memory.read_write_same _ _ _, fun a ha => Memory.read_write_other _ _ ha, ⟨rfl, rfl⟩,
      ⟨rfl, rfl, rfl, rfl, rfl, rfl⟩, rfl, rfl⟩
  · exact ⟨setDin j ((dinReg s j).writeHi v) s, step_write_of_store (hostReg_dinHiAddr j) rfl, by simp [dinHi],
      by simp [dinLo], by simp, setDin_frame j _ s⟩
  · exact ⟨setDin j ((dinReg s j).writeLo v) s, step_write_of_store (hostReg_dinLoAddr j) rfl, by simp [dinLo],
      by simp [dinHi], by simp, setDin_frame j _ s⟩

end Sys2Proof.Machine

/-! ### Requests that meet an unwritten byte (R65) -/

namespace Sys2Proof.Machine

@[simp] theorem withInput_none {α : Type} (k : α → Host.Outcome State Fault Refusal) :
    withInput none k = .fault .unwrittenRead := rfl

theorem withLen_of_legal {len : BitVec 6} (h : lenLegal len = true) (s : State)
    (k : Host.Outcome State Fault Refusal) : withLen len s k = k := if_pos (of_decide_eq_true h)

theorem withCommand_of_legal {cmd : BitVec 4} (h : cmdLegal cmd = true) (s : State)
    (k : CommandInfo → Host.Outcome State Fault Refusal) :
    ∃ e, withCommand cmd s k = k e := by
  obtain ⟨e, he⟩ := cmdTab_of_lt (of_decide_eq_true h)
  exact ⟨e, by simp only [withCommand, he]⟩

/-- `validate` and `strip` miss an input exactly where a byte of a complete group is unwritten. -/
theorem ibufGroups_eq_none {s : State} {len : BitVec 6} : ibufGroups s len = none ↔
    ((List.range (3 * (len.toNat / 3))).all fun k => (ibufByte s k).isSome) = false := by
  simp [ibufGroups, Memory.readBytes_eq_none, ibufByte]

/-- `framed` misses an input exactly where a word that it reads is not written. -/
theorem dinWords_eq_none {s : State} {cmd : BitVec 4} {nw : BitVec 2} (hnw : nw = 1#2 ∨ nw = 2#2) :
    dinWords s nw.toNat = none ↔ inputsWritten (.framed cmd nw) s = false := by
  obtain rfl | rfl := hnw
  · change dinWords s 1 = none ↔ dinWritten s 0 = false
    rw [dinWords_one, Option.map_eq_none_iff, dinWord_eq_none]
  · change dinWords s 2 = none ↔ (dinWritten s 0 && dinWritten s 1) = false
    rw [dinWords_two, Bool.and_eq_false_iff, ← dinWord_eq_none, ← dinWord_eq_none]
    cases dinWord s 0 <;> simp

/-- R65: a legal request, accepted, stops where one of its input bytes is unwritten. -/
theorem exec_of_unwritten {i : Instr} {s : State} (hwf : i.WellFormed) (hs : s.accepting = true)
    (hin : inputsWritten i s = false) : exec i s = .fault .unwrittenRead := by
  have hacc := accept_of_noFault (accepting_iff.1 hs)
  cases i with
  | crc => rw [exec, execCrc, hacc, dinWord_eq_none.2 hin, withInput_none]
  | validate len => rw [exec, execValidate, hacc, withLen_of_legal hwf, ibufGroups_eq_none.2 hin, withInput_none]
  | strip len => rw [exec, execStrip, hacc, withLen_of_legal hwf, ibufGroups_eq_none.2 hin, withInput_none]
  | framed cmd nw =>
    obtain ⟨hcmd, hnw⟩ : cmdLegal cmd = true ∧ (nw = 1#2 ∨ nw = 2#2) := by
      simpa [Instr.WellFormed, Instr.wf, nwLegal] using hwf
    rw [exec, execFramed, hacc]
    obtain ⟨e, he⟩ := withCommand_of_legal hcmd s _
    rw [he, if_pos hnw, (dinWords_eq_none hnw).2 hin, withInput_none]
  | frame | lookup => cases hin

/-- Settles O14. -/
theorem readOfUnwrittenByteFaults : Obligations.ReadOfUnwrittenByteFaults := fun _ =>
  ⟨fun _ hk hv => step_read_of_unwritten (hostReg_ibufAddr hk) hv,
    fun _ hk hv => step_read_of_unwritten (hostReg_obufAddr hk) hv,
    fun j hv => step_read_of_unwritten (hostReg_dinHiAddr j) hv,
    fun j hv => step_read_of_unwritten (hostReg_dinLoAddr j) hv,
    fun _ => exec_of_unwritten⟩

end Sys2Proof.Machine

/-! ### What a request reads decides what it does (R60, R64) -/

namespace Sys2Proof.Machine

/-! #### DIN[1] is read by `framed` with two words only -/

section
variable {f : State → State} {s : State}

/-- An update that leaves STATUS alone passes through the acceptance of a request. -/
theorem accept_mapNext {k k' : Host.Outcome State Fault Refusal} (hstatus : (f s).status = s.status)
    (hk : k' = mapNext f k) : accept (f s) k' = mapNext f (accept s k) := by
  unfold accept
  rw [hstatus, hk]
  split <;> rfl

/-- An update that leaves an input alone passes through the reading of it. -/
theorem withInput_mapNext {α : Type} {o o' : Option α} {k k' : α → Host.Outcome State Fault Refusal} (ho : o' = o)
    (hk : ∀ v, k' v = mapNext f (k v)) : withInput o' k' = mapNext f (withInput o k) := by
  subst ho
  cases o' with
  | none => rfl
  | some v => exact hk v

variable (hraise : ∀ c, raiseFault c (f s) = f (raiseFault c s))
include hraise

/-- An update that commutes with the fault action passes through the check of LEN. -/
theorem withLen_mapNext (len : BitVec 6) {k k' : Host.Outcome State Fault Refusal} (hk : k' = mapNext f k) :
    withLen len (f s) k' = mapNext f (withLen len s k) := by
  unfold withLen
  split
  · exact hk
  · rw [hraise]; rfl

/-- An update that commutes with the fault action passes through the check of CMD. -/
theorem withCommand_mapNext (cmd : BitVec 4) {k k' : CommandInfo → Host.Outcome State Fault Refusal}
    (hk : ∀ e, k' e = mapNext f (k e)) : withCommand cmd (f s) k' = mapNext f (withCommand cmd s k) := by
  unfold withCommand
  cases cmdTab cmd.toNat with
  | none => simp only [hraise]; rfl
  | some e => exact hk e

end

/-- Settles O24: another DIN[1] passes through the checks, the inputs and the updates of each request. -/
theorem oneWordRequestsIgnoreDin1 : Obligations.OneWordRequestsIgnoreDin1 := by
  intro s d i hi
  have hraise : ∀ c, raiseFault c (setDin 1 d s) = setDin 1 d (raiseFault c s) := fun _ => rfl
  cases i with
  | crc => exact accept_mapNext rfl (withInput_mapNext rfl fun _ => rfl)
  | validate len => exact accept_mapNext rfl (withLen_mapNext hraise len (withInput_mapNext rfl fun _ => rfl))
  | strip len =>
    refine accept_mapNext rfl (withLen_mapNext hraise len (withInput_mapNext rfl fun b => ?_))
    cases groupsOk b <;> rfl
  | frame cmd => exact accept_mapNext rfl (withCommand_mapNext hraise cmd fun _ => rfl)
  | framed cmd nw =>
    refine accept_mapNext rfl (withCommand_mapNext hraise cmd fun e => ?_)
    by_cases hone : nw = 1#2
    · subst hone
      exact withInput_mapNext (o' := dinWords (setDin 1 d s) 1) (o := dinWords s 1) rfl fun _ => rfl
    · have htwo : nw ≠ 2#2 := by rintro rfl; exact hi cmd rfl
      rw [if_neg (not_or.2 ⟨hone, htwo⟩), if_neg (not_or.2 ⟨hone, htwo⟩), hraise]
      rfl
  | lookup cmd => exact accept_mapNext rfl (withCommand_mapNext hraise cmd fun _ => rfl)

/-! #### A completed request finds the same inputs again -/

theorem dinWord_of_sameDin {s t : State} (h : sameDin s t) (j : Fin 2) : dinWord t j = dinWord s j := by
  obtain ⟨h0, h1⟩ := h
  have hreg : dinReg t j = dinReg s j := by
    fin_cases j
    · exact h0
    · exact h1
  rw [dinWord, dinWord, dinWritten, dinWritten, hreg]

theorem dinWords_of_sameDin {s t : State} (h : sameDin s t) (n : Nat) : dinWords t n = dinWords s n := by
  match n with
  | 0 => rfl
  | 1 => simp only [dinWords, dinWord_of_sameDin h]
  | n + 2 => simp only [dinWords, dinWord_of_sameDin h]

theorem ibufGroups_of_sameInputs {s t : State} (h : sameInputs s t) {len : BitVec 6}
    (hlen : len.toNat ≤ Config.ibufCap) : ibufGroups t len = ibufGroups s len := by
  obtain ⟨hbytes, -⟩ := h
  ext bs
  simp only [ibufGroups, Memory.readBytes_eq_some]
  refine and_congr_right fun _ => forall₂_congr fun k hk => ?_
  have hbyte : Memory.read t.mem (ibufBase + k) = Memory.read s.mem (ibufBase + k) := hbytes k (by omega)
  rw [hbyte]

theorem complete_idem (m : Bool) (s : State) : complete m (complete m s) = complete m s := by
  simp [complete, statusCompleted_idem]

/-- Putting the same result again changes nothing. -/
theorem complete_putResult_idem (m : Bool) (bs : List Byte) (s : State) :
    complete m (putResult bs (complete m (putResult bs s))) = complete m (putResult bs s) := by
  simp [complete, putResult, statusCompleted_idem, Memory.writeBytes_idem]

/-- Settles O46: the inputs and the table row are the same again, and each update is idempotent. -/
theorem sameRequestTwiceIsOnce : Obligations.SameRequestTwiceIsOnce := by
  intro s t i h ht
  obtain ⟨hinputs, -⟩ := exec_keeps_inputs h
  have hdin : sameDin s t := hinputs.2
  have hf := accepting_iff.1 ht
  have hfault : ∀ c, t ≠ raiseFault c s := by rintro c rfl; simp at ht
  cases i with
  | crc =>
    obtain ⟨-, w, hw, rfl⟩ := execCrc_next.1 h
    exact execCrc_next.2 ⟨hf, w, by rwa [dinWord_of_sameDin hdin], (complete_idem _ _).symm⟩
  | validate len =>
    obtain ⟨-, ⟨hlen, b, hb, rfl⟩ | ⟨-, hc⟩⟩ := execValidate_next.1 h
    · exact execValidate_next.2 ⟨hf, .inl ⟨hlen, b, by rwa [ibufGroups_of_sameInputs hinputs hlen],
        (complete_idem _ _).symm⟩⟩
    · exact absurd hc (hfault _)
  | strip len =>
    obtain ⟨-, ⟨hlen, b, hb, heq⟩ | ⟨-, hc⟩⟩ := execStrip_next.1 h
    · refine execStrip_next.2 ⟨hf, .inl ⟨hlen, b, by rwa [ibufGroups_of_sameInputs hinputs hlen], ?_⟩⟩
      cases hok : groupsOk b with
      | true =>
        rw [if_pos hok] at heq
        rw [heq]; exact (complete_putResult_idem _ _ _).symm
      | false =>
        rw [hok] at heq
        rw [heq]; exact (complete_idem _ _).symm
    · exact absurd hc (hfault _)
  | frame cmd =>
    obtain ⟨-, ⟨e, he, rfl⟩ | ⟨-, hc⟩⟩ := execFrame_next.1 h
    · exact execFrame_next.2 ⟨hf, .inl ⟨e, he, (complete_putResult_idem _ _ _).symm⟩⟩
    · exact absurd hc (hfault _)
  | framed cmd nw =>
    obtain ⟨-, ⟨e, he, ⟨hnw, ws, hws, rfl⟩ | ⟨-, hc⟩⟩ | ⟨-, hc⟩⟩ := execFramed_next.1 h
    · exact execFramed_next.2 ⟨hf, .inl ⟨e, he, .inl ⟨hnw, ws, by rwa [dinWords_of_sameDin hdin],
        (complete_putResult_idem _ _ _).symm⟩⟩⟩
    · exact absurd hc (hfault _)
    · exact absurd hc (hfault _)
  | lookup cmd =>
    obtain ⟨-, ⟨e, he, rfl⟩ | ⟨-, hc⟩⟩ := execLookup_next.1 h
    · exact execLookup_next.2 ⟨hf, .inl ⟨e, he, (complete_idem _ _).symm⟩⟩
    · exact absurd hc (hfault _)

end Sys2Proof.Machine

/-! ### The fields of a request word (R70) -/

namespace Sys2Proof

/-- A field of a word as a number. -/
theorem toNat_field (rq : RequestWord) (start width : Nat) :
    (rq.extractLsb' start width).toNat = rq.toNat / 2 ^ start % 2 ^ width := by
  rw [BitVec.extractLsb'_toNat, Nat.shiftRight_eq_div_pow]

theorem fieldsOf_op (rq : RequestWord) : (fieldsOf rq).op.toNat = rq.toNat / 4096 :=
  (toNat_field rq 12 4).trans (by omega)
theorem fieldsOf_cmd (rq : RequestWord) : (fieldsOf rq).cmd.toNat = rq.toNat / 256 % 16 := toNat_field rq 8 4
theorem fieldsOf_nw (rq : RequestWord) : (fieldsOf rq).nw.toNat = rq.toNat / 64 % 4 := toNat_field rq 6 2
theorem fieldsOf_len (rq : RequestWord) : (fieldsOf rq).len.toNat = rq.toNat % 64 :=
  (toNat_field rq 0 6).trans (by omega)

/-- The word of four fields as a number. -/
theorem ofFields_toNat (f : Fields) :
    (ofFields f).toNat = f.op.toNat * 4096 + f.cmd.toNat * 256 + f.nw.toNat * 64 + f.len.toNat := by
  simp only [ofFields, BitVec.toNat_append]
  rw [← Nat.shiftLeft_add_eq_or_of_lt f.len.isLt, ← Nat.shiftLeft_add_eq_or_of_lt f.nw.isLt,
    ← Nat.shiftLeft_add_eq_or_of_lt f.cmd.isLt]
  simp only [Nat.shiftLeft_eq]
  omega

theorem Fields.eq_of_toNat {f g : Fields} (hop : f.op.toNat = g.op.toNat) (hcmd : f.cmd.toNat = g.cmd.toNat)
    (hnw : f.nw.toNat = g.nw.toNat) (hlen : f.len.toNat = g.len.toNat) : f = g := by
  cases f
  cases g
  simp only [BitVec.toNat_inj] at hop hcmd hnw hlen
  rw [hop, hcmd, hnw, hlen]

/-- Each field is found where it was put: the other three do not reach into its bits. -/
@[simp] theorem fieldsOf_ofFields (f : Fields) : fieldsOf (ofFields f) = f := by
  have hword := ofFields_toNat f
  apply Fields.eq_of_toNat
  · rw [fieldsOf_op]; omega
  · rw [fieldsOf_cmd]; omega
  · rw [fieldsOf_nw]; omega
  · rw [fieldsOf_len]; omega

/-- The four fields are the whole word: no bit lies outside them. -/
@[simp] theorem ofFields_fieldsOf (rq : RequestWord) : ofFields (fieldsOf rq) = rq := by
  apply BitVec.eq_of_toNat_eq
  rw [ofFields_toNat, fieldsOf_op, fieldsOf_cmd, fieldsOf_nw, fieldsOf_len]
  omega

theorem fieldsOf_inj {rq rq' : RequestWord} : fieldsOf rq = fieldsOf rq' ↔ rq = rq' :=
  ⟨fun h => by rw [← ofFields_fieldsOf rq, h, ofFields_fieldsOf], congrArg fieldsOf⟩

section
variable (f : Fields)

@[simp] theorem ofFields_toNat_op : (ofFields f).toNat / 4096 = f.op.toNat := by
  rw [← fieldsOf_op, fieldsOf_ofFields]
@[simp] theorem ofFields_toNat_cmd : (ofFields f).toNat / 256 % 16 = f.cmd.toNat := by
  rw [← fieldsOf_cmd, fieldsOf_ofFields]
@[simp] theorem ofFields_toNat_nw : (ofFields f).toNat / 64 % 4 = f.nw.toNat := by
  rw [← fieldsOf_nw, fieldsOf_ofFields]
@[simp] theorem ofFields_toNat_len : (ofFields f).toNat % 64 = f.len.toNat := by
  rw [← fieldsOf_len, fieldsOf_ofFields]

end

/-- A mask acts on each field by itself. -/
theorem fieldsOf_and (rq m : RequestWord) : fieldsOf (rq &&& m) =
    { op := (fieldsOf rq).op &&& (fieldsOf m).op, cmd := (fieldsOf rq).cmd &&& (fieldsOf m).cmd,
      nw := (fieldsOf rq).nw &&& (fieldsOf m).nw, len := (fieldsOf rq).len &&& (fieldsOf m).len } := by
  simp only [fieldsOf, BitVec.extractLsb'_and]

/-- A word under a mask is a given word exactly where each field under the mask's field is the given field. -/
theorem and_eq_iff_fields (rq m w : RequestWord) : rq &&& m = w ↔
    (fieldsOf rq).op &&& (fieldsOf m).op = (fieldsOf w).op ∧ (fieldsOf rq).cmd &&& (fieldsOf m).cmd = (fieldsOf w).cmd ∧
      (fieldsOf rq).nw &&& (fieldsOf m).nw = (fieldsOf w).nw ∧
      (fieldsOf rq).len &&& (fieldsOf m).len = (fieldsOf w).len := by
  rw [← fieldsOf_inj, fieldsOf_and]
  exact Fields.mk.injEq .. ▸ Iff.rfl

end Sys2Proof

/-! ### Decoding and encoding (R75 to R77, R81) -/

namespace Sys2Proof.Machine

/-- Settles O1: the decoder finds the four fields that `encode` joined (`fieldsOf_ofFields`), and in each row of the
table the fields that the request does not use are 0. -/
theorem decodeOfEncodeIsTheRequest : Obligations.DecodeOfEncodeIsTheRequest := by
  intro i
  cases i with
  | crc => rfl
  | validate len | strip len => simp [encode, decode, fieldsOf_ofFields]
  | frame cmd | lookup cmd => simp [encode, decode, fieldsOf_ofFields]
  | framed cmd nw => simp [encode, decode, fieldsOf_ofFields]

/-- Settles O4: each word is the sum of its fields, each at its place. -/
theorem encodeGivesTheWordsOfR81 : Obligations.EncodeGivesTheWordsOfR81 := by
  refine ⟨rfl, fun len => ?_, fun len => ?_, fun cmd => ?_, fun cmd nw => ?_, fun cmd => ?_⟩ <;>
    simp [encode, ofFields_toNat]

/-- What R77 says of the decoder's answer to a word: the word is that of the request answered, or it takes the fault of
the rejection. -/
def AcceptedOrRejected (rq : RequestWord) (answer : Except Reject Instr) : Prop :=
  (∃ i, answer = .ok i ∧ encode i = rq) ∨ ∃ r, answer = .error r ∧ faultOfWord rq = some (rejectCause r)

/-- One row of the table: the word is taken where its unused fields are 0. -/
theorem acceptedOrRejected_ite {unusedZero : Prop} [Decidable unusedZero] {i : Instr} {rq : RequestWord}
    (haccept : unusedZero → encode i = rq) (hreject : ¬unusedZero → faultOfWord rq = some .illegalField) :
    AcceptedOrRejected rq (if unusedZero then .ok i else .error .unusedFieldNotZero) := by
  split
  · exact .inl ⟨i, rfl, haccept ‹_›⟩
  · exact .inr ⟨_, rfl, hreject ‹_›⟩

/-- R75, R76: a word of a defined OP is read by its row of the table, and any other word is rejected. -/
theorem decode_acceptedOrRejected (rq : RequestWord) : AcceptedOrRejected rq (decode rq) := by
  obtain ⟨⟨op, cmd, nw, len⟩, rfl⟩ : ∃ f, ofFields f = rq := ⟨_, ofFields_fieldsOf rq⟩
  have hrow {k : Nat} (h : op.toNat = k) : op = BitVec.ofNat 4 k := (BitVec.toNat_eq_nat.1 h).2
  simp only [decode, fieldsOf_ofFields]
  split
  case h_1 h | h_2 h | h_3 h | h_4 h | h_5 h | h_6 h =>
    obtain rfl := hrow h
    refine acceptedOrRejected_ite (fun hzero => by simp [encode, hzero]) fun hnonzero => ?_
    -- The row's check in `faultOfWord`, on the fields as numbers.
    simp [faultOfWord]
    bv_omega
  case h_7 h1 h2 h3 h4 h5 h6 =>
    have hreserved : op.toNat = 0 ∨ 7 ≤ op.toNat := by grind
    exact .inr ⟨_, rfl, by simp [faultOfWord, hreserved, rejectCause]⟩

/-- Settles O2. -/
theorem encodeOfDecodedIsTheWord : Obligations.EncodeOfDecodedIsTheWord := by
  intro rq i h
  obtain ⟨j, hj, hword⟩ | ⟨r, hr, -⟩ := decode_acceptedOrRejected rq
  · obtain rfl := Except.ok.inj (hj.symm.trans h)
    exact hword
  · cases hr.symm.trans h

/-- The decoder reads a request from the request's own word and from no other. -/
theorem decode_eq_ok {rq : RequestWord} {i : Instr} : decode rq = .ok i ↔ encode i = rq :=
  ⟨encodeOfDecodedIsTheWord rq i, by rintro rfl; exact decodeOfEncodeIsTheRequest i⟩

theorem decode_eq_ok_iff_fields {rq : RequestWord} {i : Instr} :
    decode rq = .ok i ↔ fieldsOf rq = fieldsOf (encode i) := by rw [fieldsOf_inj, decode_eq_ok, eq_comm]

/-- Settles O3: both sides speak of each field by itself, and a field whose mask is all ones is the field. -/
theorem decodeFollowsTheOpcodeTable : Obligations.DecodeFollowsTheOpcodeTable := by
  intro rq
  have hmask4 (x : BitVec 4) : x &&& 15#4 = x := BitVec.and_allOnes
  have hmask2 (x : BitVec 2) : x &&& 3#2 = x := BitVec.and_allOnes
  have hmask6 (x : BitVec 6) : x &&& 63#6 = x := BitVec.and_allOnes
  simp only [decode_eq_ok_iff_fields, encode, fieldsOf_ofFields, and_eq_iff_fields, ← fieldsOf_cmd, ← fieldsOf_nw,
    ← fieldsOf_len, BitVec.toNat_inj]
  obtain ⟨op, cmd, nw, len⟩ := fieldsOf rq
  refine ⟨?_, fun len' => ?_, fun len' => ?_, fun cmd' => ?_, fun cmd' nw' => ?_, fun cmd' => ?_⟩ <;>
    simp [fieldsOf, hmask4, hmask2, hmask6, eq_comm (b := cmd), eq_comm (b := nw), eq_comm (b := len), and_assoc,
      and_left_comm, and_comm]

/-! #### The legal words (R77) -/

/-- Every value of an operand field. -/
def fieldValues (width : Nat) : List (BitVec width) := (List.finRange (2 ^ width)).map BitVec.ofFin

@[simp] theorem mem_fieldValues {width : Nat} (x : BitVec width) : x ∈ fieldValues width :=
  List.mem_map.2 ⟨x.toFin, List.mem_finRange _, rfl⟩

/-- Every request with legal operands: of all requests, row by row, those that `Instr.wf` takes. -/
def legalRequests : List Instr :=
  (Instr.crc :: ((fieldValues 6).map Instr.validate ++ (fieldValues 6).map Instr.strip ++
    (fieldValues 4).map Instr.frame ++ (fieldValues 4).flatMap (fun cmd => (fieldValues 2).map (Instr.framed cmd)) ++
    (fieldValues 4).map Instr.lookup)).filter Instr.wf

theorem mem_legalRequests {i : Instr} : i ∈ legalRequests ↔ i.WellFormed := by
  cases i <;> simp [legalRequests]

/-- R77: 1 + 33 + 33 + 9 + 18 + 9. -/
theorem legalRequests_length : legalRequests.length = 103 := by decide

/-- The requests stand in the order of their words, so no word comes twice. -/
theorem legalRequests_words_rise : (legalRequests.map fun i => (encode i).toNat).IsChain (· < ·) := by
  decide +kernel

/-- Settles O6: the words of the legal requests. -/
theorem exactlyOneHundredThreeLegalWords : Obligations.ExactlyOneHundredThreeLegalWords := by
  have hdistinct : (legalRequests.map encode).Nodup :=
    .of_map BitVec.toNat (by
      rw [List.map_map]
      exact (List.isChain_iff_pairwise.1 legalRequests_words_rise).imp Nat.ne_of_lt)
  refine ⟨legalRequests.map encode, hdistinct, ?_, fun rq => ?_⟩
  · rw [List.length_map, legalRequests_length]
  · simp only [List.mem_map, mem_legalRequests, decode_eq_ok]

end Sys2Proof.Machine

/-! ### The issue of a word (R77, R78) -/

namespace Sys2Proof.Machine

/-- R76, R123: the fault of a request with an operand out of its range. -/
def operandFault : Instr → Option Cause
  | .crc => none
  | .validate len | .strip len => if lenLegal len then none else some .illegalField
  | .frame cmd | .lookup cmd => if cmdLegal cmd then none else some .illegalField
  | .framed cmd nw => if cmdLegal cmd then if nwLegal nw then none else some .contract else some .illegalField

/-- A request has legal operands exactly where no operand faults. -/
theorem operandFault_eq_none {i : Instr} : operandFault i = none ↔ i.WellFormed := by
  cases i with
  | crc => exact ⟨fun _ => rfl, fun _ => rfl⟩
  | validate len | strip len | frame cmd | lookup cmd => simp [operandFault, Instr.wf]
  | framed cmd nw => cases h : cmdLegal cmd <;> simp [operandFault, Instr.wf, h]

/-- R77: issuing the word of a request raises the fault of the request's operands. -/
theorem faultOfWord_encode (i : Instr) : faultOfWord (encode i) = operandFault i := by
  have hlen (len : BitVec 6) : 32 < len.toNat ↔ lenLegal len = false := by simp [lenLegal, Config.ibufCap]
  have hcmd (cmd : BitVec 4) : 8 < cmd.toNat ↔ cmdLegal cmd = false := by
    simp [cmdLegal, Config.ncmd, Nat.succ_le_iff]
  have hnw (nw : BitVec 2) : ¬nw.toNat = 1 ∧ ¬nw.toNat = 2 ↔ nwLegal nw = false := by revert nw; decide
  cases i with
  | crc => rfl
  | validate len | strip len => cases h : lenLegal len <;> simp [faultOfWord, encode, operandFault, hlen, h]
  | frame cmd | lookup cmd => cases h : cmdLegal cmd <;> simp [faultOfWord, encode, operandFault, hcmd, h]
  | framed cmd nw =>
    cases h : cmdLegal cmd <;> cases h' : nwLegal nw <;> simp [faultOfWord, encode, operandFault, hcmd, hnw, h, h']

theorem withLen_of_illegal {len : BitVec 6} (h : lenLegal len = false) (s : State)
    (k : Host.Outcome State Fault Refusal) : withLen len s k = .next (raiseFault .illegalField s) :=
  if_neg (of_decide_eq_false h)

theorem withCommand_of_illegal {cmd : BitVec 4} (h : cmdLegal cmd = false) (s : State)
    (k : CommandInfo → Host.Outcome State Fault Refusal) :
    withCommand cmd s k = .next (raiseFault .illegalField s) := by
  simp only [withCommand, cmdTab_of_ge (Nat.not_lt.1 (of_decide_eq_false h))]

/-- R76, R123, R145: an accepted request with an operand out of its range takes its fault, whatever its inputs hold. -/
theorem exec_of_operandFault {i : Instr} {s : State} {c : Cause} (hs : s.accepting = true)
    (hc : operandFault i = some c) : exec i s = .next (raiseFault c s) := by
  have hacc := accept_of_noFault (accepting_iff.1 hs)
  cases i with
  | crc => cases hc
  | validate len =>
    obtain ⟨hlen, rfl⟩ : lenLegal len = false ∧ .illegalField = c := by simpa [operandFault] using hc
    rw [exec, execValidate, hacc, withLen_of_illegal hlen]
  | strip len =>
    obtain ⟨hlen, rfl⟩ : lenLegal len = false ∧ .illegalField = c := by simpa [operandFault] using hc
    rw [exec, execStrip, hacc, withLen_of_illegal hlen]
  | frame cmd =>
    obtain ⟨hcmd, rfl⟩ : cmdLegal cmd = false ∧ .illegalField = c := by simpa [operandFault] using hc
    rw [exec, execFrame, hacc, withCommand_of_illegal hcmd]
  | lookup cmd =>
    obtain ⟨hcmd, rfl⟩ : cmdLegal cmd = false ∧ .illegalField = c := by simpa [operandFault] using hc
    rw [exec, execLookup, hacc, withCommand_of_illegal hcmd]
  | framed cmd nw =>
    rw [exec, execFramed, hacc]
    cases hcmd : cmdLegal cmd with
    | false =>
      obtain rfl : .illegalField = c := by simpa [operandFault, hcmd] using hc
      rw [withCommand_of_illegal hcmd]
    | true =>
      obtain ⟨hnw, rfl⟩ : nwLegal nw = false ∧ .contract = c := by simpa [operandFault, hcmd] using hc
      obtain ⟨e, he⟩ := withCommand_of_legal hcmd s _
      rw [he, if_neg (by simpa [nwLegal] using hnw)]

/-- R142: the next state of an outcome that takes a fault differs in STATUS only, and records the cause there. -/
theorem next_of_raiseFault {o : Host.Outcome State Fault Refusal} {s : State} {c : Cause}
    (h : o = .next (raiseFault c s)) :
    ∃ t, o = .next t ∧ raisedStatus s.status t.status (causeCode c) ∧ sameButStatus s t :=
  ⟨_, h, raisedStatus_statusRaised _ c, rfl⟩

theorem issue_of_decode {rq : RequestWord} {i : Instr} (h : decode rq = .ok i) (s : State) :
    issue rq s = exec i s := by rw [issue, h]

theorem issue_of_reject {rq : RequestWord} {r : Reject} {s : State} (hs : s.accepting = true)
    (h : decode rq = .error r) : issue rq s = .next (raiseFault (rejectCause r) s) :=
  issue_next.2 (.inr ⟨r, h, accepting_iff.1 hs, rfl⟩)

/-- Settles O8: a word that is accepted takes the fault of its operands, or is run; one that is rejected takes the fault
of the rejection. -/
theorem issueTakesTheFirstFaultThatApplies : Obligations.IssueTakesTheFirstFaultThatApplies := by
  intro s rq hs
  rw [step_queue_issue]
  obtain ⟨i, hi, rfl⟩ | ⟨r, hr, hfault⟩ := decode_acceptedOrRejected rq
  · rw [issue_of_decode hi, faultOfWord_encode]
    exact ⟨fun c hc => next_of_raiseFault (exec_of_operandFault hs hc),
      fun hc => ⟨i, hi, operandFault_eq_none.1 hc, rfl⟩⟩
  · rw [hfault]
    refine ⟨fun c hc => ?_, nofun⟩
    obtain rfl := Option.some.inj hc
    exact next_of_raiseFault (issue_of_reject hs hr)

/-- Settles O38. -/
theorem lengthsAboveTheBufferTakeIllegalField : Obligations.LengthsAboveTheBufferTakeIllegalField := by
  intro s len hs hlen
  have hillegal : (if lenLegal len then none else some Cause.illegalField) = some .illegalField :=
    if_neg (by simp only [lenLegal, Config.ibufCap, decide_eq_true_eq]; omega)
  exact ⟨next_of_raiseFault (exec_of_operandFault (i := .validate len) hs hillegal),
    next_of_raiseFault (exec_of_operandFault (i := .strip len) hs hillegal)⟩

/-- Settles O7. -/
theorem stepRunsTheDecodedRequest : Obligations.StepRunsTheDecodedRequest := by
  refine ⟨fun s rq i rest hpending hi => ?_, fun s i => ?_⟩
  · simp only [step, performNext, hpending, perform, issue_of_decode hi]
  · rw [State.withFetchWord, BitVec.ofNat_toNat, BitVec.setWidth_eq, step_queue_issue,
      issue_of_decode (decodeOfEncodeIsTheRequest i)]

end Sys2Proof.Machine

/-! ### The host's pseudo-instructions (R82) -/

namespace Sys2Proof.Machine

theorem commandAt_commandIndex (c : Command) : commandAt (commandIndex c).toNat = some c := by cases c <;> rfl

/-- Settles O49: an operand that is the table's number is the field that the expansion takes from the table. -/
theorem sendAndRecvExpandByTheTable : Obligations.SendAndRecvExpandByTheTable := by
  have hnonzero {width : Nat} {x : BitVec width} {y : Byte} (hx : x ≠ 0) (h : x.toNat = y.toNat) : y ≠ 0 := by
    rintro rfl
    exact hx (BitVec.eq_of_toNat_eq h)
  intro c
  refine ⟨commandAt_commandIndex c, fun h => if_pos h, fun nw hne hnw => ?_, fun len hne hlen => ?_,
    fun h => if_pos h⟩
  · rw [send, if_neg (hnonzero hne hnw), ← hnw, BitVec.ofNat_toNat, BitVec.setWidth_eq, requestAction]
  · rw [recv, if_neg (hnonzero hne hlen), ← hlen, BitVec.ofNat_toNat, BitVec.setWidth_eq, requestAction]

/-- A run whose first action is a host write that a register stores. -/
theorem run_write {s t : State} {a : HAddr} {v : Byte} {r : HostReg} (n : Nat) (hreg : hostReg a = some r)
    (ht : hostStore v s r = some t) : Sys2Proof.core.run (n + 1) (s.queue (.wr a v)) = Sys2Proof.core.run n t :=
  run_succ_of_step n (step_write_of_store hreg ht)

@[simp] theorem dinReg_queue (j : Fin 2) (s : State) (act : HostAction) : dinReg (s.queue act) j = dinReg s j := by
  fin_cases j <;> rfl

theorem setDin_queue (j : Fin 2) (d : DataWord) (s : State) (act : HostAction) :
    setDin j d (s.queue act) = (setDin j d s).queue act := by fin_cases j <;> rfl

/-- A second update of the same register replaces the first. -/
theorem setDin_setDin (j : Fin 2) (d d' : DataWord) (s : State) : setDin j d' (setDin j d s) = setDin j d' s := by
  fin_cases j <;> rfl

/-- R54: a write of each half leaves the word of the two bytes, whatever the register held. -/
theorem writeLo_writeHi (w : Word) (d : DataWord) : (d.writeHi (hiByte w)).writeLo (loByte w) =
    { word := w, hiWritten := true, loWritten := true } := by
  simp [DataWord.writeLo, DataWord.writeHi, joinBytes_hi_lo]

/-- R82: the two host writes of `wrw` leave its word in DIN[j], both halves written. -/
theorem run_wrw (s : State) (j : Fin 2) (w : Word) :
    Sys2Proof.core.run 2 { s with pending := wrw j w ++ s.pending } =
      .next (setDin j { word := w, hiWritten := true, loWritten := true } s) := by
  have hhi (act : HostAction) : hostStore (hiByte w) (s.queue act) (.dinHi j) =
      some ((setDin j ((dinReg s j).writeHi (hiByte w)) s).queue act) := by
    rw [hostStore, dinReg_queue, setDin_queue]
  have hlo : hostStore (loByte w) (setDin j ((dinReg s j).writeHi (hiByte w)) s) (.dinLo j) =
      some (setDin j { word := w, hiWritten := true, loWritten := true } s) := by
    rw [hostStore, dinReg_setDin_same, setDin_setDin, writeLo_writeHi]
  exact (run_write 1 (hostReg_dinHiAddr j) (hhi _)).trans (run_write 0 (hostReg_dinLoAddr j) hlo)

/-- Settles O47. -/
theorem wrwWritesTheDataWord : Obligations.WrwWritesTheDataWord := by
  intro s j w
  obtain ⟨hother, hbytes, hregs, hpending, hreturned⟩ :=
    setDin_frame j { word := w, hiWritten := true, loWritten := true } { s with pending := [] }
  exact ⟨_, run_wrw { s with pending := [] } j w, by simp [dinWord, dinWritten], hother, hbytes, hregs, hpending,
    hreturned⟩

/-- R82: host writes at consecutive addresses of IBUF put their bytes there. -/
theorem run_writesFrom (s : State) (a : Nat) (bs : List Byte) (h : a + bs.length ≤ 32) :
    Sys2Proof.core.run bs.length { s with pending := writesFrom a bs } =
      .next { s with mem := Memory.writeBytes s.mem a bs, pending := [] } := by
  induction bs generalizing s a with
  | nil => rfl
  | cons b bs ih =>
    rw [List.length_cons] at h
    have hstore : hostStore b { s with pending := writesFrom (a + 1) bs } (.ibuf a) =
        some { s with mem := Memory.write s.mem a b, pending := writesFrom (a + 1) bs } := by
      rw [hostStore, ibufBase, Nat.zero_add]
    exact (run_write _ (hostReg_ibufAddr (by omega)) hstore).trans
      (ih { s with mem := Memory.write s.mem a b } (a + 1) (by omega))

/-- Settles O48. -/
theorem loadFillsTheInputBuffer : Obligations.LoadFillsTheInputBuffer := by
  intro s bs acts hload
  obtain ⟨⟨-, hlen⟩, rfl⟩ : (1 ≤ bs.length ∧ bs.length ≤ Config.ibufCap) ∧ writesFrom 0 bs = acts := by
    simpa [load] using hload
  refine ⟨_, run_writesFrom s 0 bs (by simpa using hlen), fun k hk => ?_, ⟨rfl, rfl⟩, ⟨rfl, rfl, rfl, rfl, rfl, rfl⟩,
    rfl, rfl, fun a ha => Memory.read_writeBytes_outside _ _ _ (.inr (by omega))⟩
  rw [List.getElem?_eq_getElem hk]
  exact Memory.read_writeBytes_inside _ _ _ hk

end Sys2Proof.Machine

/-! ### The checksum (R90 to R93) -/

namespace Sys2Proof.Machine

/-- The inner step run backwards. The polynomial is odd and a shift leaves bit 0 clear, so bit 0 says whether the
polynomial was XORed in, which is the bit that was shifted out. -/
def crcUnshift (r : Byte) : Byte := if r.getLsbD 0 then ((r ^^^ crcPoly) >>> 1) ||| 0x80 else r >>> 1

theorem crcUnshift_crcShift : Function.LeftInverse crcUnshift crcShift := by unfold Function.LeftInverse; decide

theorem crcShift_crcUnshift : Function.RightInverse crcUnshift crcShift := by
  unfold Function.RightInverse Function.LeftInverse; decide

theorem crcShifts_bijective (n : Nat) : Function.Bijective (crcShifts n) := by
  induction n with
  | zero => exact Function.bijective_id
  | succ n ih =>
    exact ih.comp (Function.bijective_iff_has_inverse.2 ⟨crcUnshift, crcUnshift_crcShift, crcShift_crcUnshift⟩)

/-- For a fixed register every result comes from exactly one byte. -/
theorem crcByte_bijective_in_byte (r : Byte) : Function.Bijective fun b => crcByte r b := by
  have hxor : Function.Involutive fun b : Byte => r ^^^ b := fun b => by simp
  exact (crcShifts_bijective 8).comp hxor.bijective

theorem crcByte_comm (r b : Byte) : crcByte r b = crcByte b r := by rw [crcByte, crcByte, BitVec.xor_comm]

/-- R90, R91: the register takes in the high byte, and then the low byte. -/
theorem checksum_eq (a b : Byte) : checksum a b = crcByte (crcByte crcInit a) b := rfl

/-- Settles O22: each byte goes through inner steps that can be run backwards. -/
theorem checksumIsOneToOneInEachByte : Obligations.ChecksumIsOneToOneInEachByte := by
  simp only [Obligations.ChecksumIsOneToOneInEachByte, checksum_eq]
  refine ⟨fun a => (crcByte_bijective_in_byte _).existsUnique, fun b => ?_⟩
  simp only [crcByte_comm _ b]
  exact ((crcByte_bijective_in_byte b).comp (crcByte_bijective_in_byte crcInit)).existsUnique

/-- R92: the listed table holds what the eight inner steps make of each byte. -/
theorem crcShifts_eight_eq_specT : ∀ x : Byte, crcShifts 8 x = specT x := by decide +kernel

/-- Settles O21. -/
theorem checksumAgreesWithVectorAndTable : Obligations.ChecksumAgreesWithVectorAndTable := by
  refine ⟨by decide +kernel, crcShifts_eight_eq_specT, fun a b => ?_⟩
  rw [checksum_eq, crcByte, crcByte, crcShifts_eight_eq_specT, crcShifts_eight_eq_specT, BitVec.xor_comm crcInit a,
    crcInit]

/-- Settles O23. -/
theorem crcWritesTheChecksumOfDin0 : Obligations.CrcWritesTheChecksumOfDin0 := by
  intro s hi lo hs hhi hlo
  have hexec : exec .crc s = .next (complete false { s with crcout := checksum hi lo }) :=
    execCrc_next.2 ⟨accepting_iff.1 hs, joinBytes hi lo, dinWord_of_bytes hhi hlo, by simp⟩
  exact ⟨_, hexec, rfl, completedStatus_statusCompleted _ _, rfl, ⟨rfl, rfl, rfl⟩, ⟨fun _ => rfl, rfl, rfl⟩, rfl, rfl⟩

end Sys2Proof.Machine

/-! ### `validate` (R94 to R99) -/

namespace Sys2Proof.Machine

/-- R96: an accepted `validate` whose groups are all written completes with the result of the group check. -/
theorem exec_validate_of_groups {s : State} {len : BitVec 6} {bs : List Byte} (hs : s.accepting = true)
    (hlen : len.toNat ≤ 32) (hbs : ibufGroups s len = some bs) :
    exec (.validate len) s = .next (complete (!groupsOk bs) s) :=
  execValidate_next.2 ⟨accepting_iff.1 hs, .inl ⟨hlen, bs, hbs, rfl⟩⟩

/-- Settles O25. -/
theorem validateReportsAnyFailingGroup : Obligations.ValidateReportsAnyFailingGroup := by
  intro s len b hs hlen hb
  have hbs := Memory.readBytes_of_forall s.mem ibufBase _ b hb
  refine ⟨_, _, exec_validate_of_groups hs hlen hbs, completedStatus_statusCompleted _ _, ?_, rfl, rfl, ⟨rfl, rfl, rfl⟩,
    ⟨fun _ => rfl, rfl, rfl⟩, rfl, rfl⟩
  rw [Bool.not_eq_true', groupsOk_eq_false_iff hbs, someGroupFails_iff hb]
  rfl

/-- R97: fewer than 3 bytes hold no complete group, so nothing is read. -/
theorem ibufGroups_of_short {len : BitVec 6} (h : len.toNat < 3) (s : State) : ibufGroups s len = some [] := by
  rw [ibufGroups, Nat.div_eq_of_lt h]
  rfl

/-- R97, R99: a buffer of fewer than 3 bytes passes, whatever it holds. -/
theorem exec_validate_of_short {s : State} {len : BitVec 6} (hs : s.accepting = true) (hlen : len.toNat < 3) :
    exec (.validate len) s = .next (complete false s) :=
  exec_validate_of_groups hs (by omega) (ibufGroups_of_short hlen s)

/-- Three written bytes are the one group of a buffer of 3. -/
theorem ibufGroups_three {s : State} {a b c : Byte} (ha : ibufByte s 0 = some a) (hb : ibufByte s 1 = some b)
    (hc : ibufByte s 2 = some c) : ibufGroups s 3 = some [a, b, c] := by
  have ha : Memory.read s.mem ibufBase = some a := ha
  rw [ibufByte] at hb hc
  simp [ibufGroups, Memory.readBytes, ha, hb, hc]

/-- Settles O26. -/
theorem validateAcceptsExactlyTheChecksum : Obligations.ValidateAcceptsExactlyTheChecksum := by
  refine ⟨fun s a b c hs ha hb hc => ?_, fun s len hs hlen => ?_⟩
  · refine ⟨_, exec_validate_of_groups hs (by decide) (ibufGroups_three ha hb hc), ?_⟩
    have hok : groupsOk [a, b, c] = (checksum a b == c) := Bool.and_true _
    rw [complete_status, statusCserr_completed, hok]
    exact ⟨fun h => by simp [h], fun h => by simp [h.symm]⟩
  · exact ⟨_, exec_validate_of_short hs (by omega), statusCserr_completed _ _⟩

/-- R97: a byte outside the complete groups is not among the bytes that are read. -/
theorem ibufGroups_poke {s : State} {len : BitVec 6} {k : Nat} (hk : 3 * (len.toNat / 3) ≤ k) (v : Byte) :
    ibufGroups (poke (ibufBase + k) v s) len = ibufGroups s len := by
  ext bs
  simp only [ibufGroups, poke, Memory.readBytes_eq_some]
  refine and_congr_right fun _ => forall₂_congr fun j hj => ?_
  rw [Memory.read_write_other _ _ (by omega)]

/-- A result goes to OBUF, so an IBUF byte may be written before it or after it. -/
theorem putResult_poke {k : Nat} (hk : k < 32) (v : Byte) (bs : List Byte) (s : State) :
    putResult bs (poke (ibufBase + k) v s) = poke (ibufBase + k) v (putResult bs s) := by
  have hbelow : ibufBase + k < obufBase := by simp only [ibufBase, obufBase]; omega
  simp only [putResult, poke, Memory.write_writeBytes_comm _ _ bs v (.inl hbelow)]

/-- Settles O27: another byte of a trailing partial group passes through the checks, the input and the updates. -/
theorem trailingPartialGroupIsNotRead : Obligations.TrailingPartialGroupIsNotRead := by
  refine ⟨fun s len k v hk hk32 => ?_, fun s len => exec_validate_of_short, fun s => ?_⟩
  · have hraise : ∀ c, raiseFault c (poke (ibufBase + k) v s) = poke (ibufBase + k) v (raiseFault c s) := fun _ => rfl
    have hgroups := ibufGroups_poke (s := s) hk v
    refine ⟨accept_mapNext rfl (withLen_mapNext hraise len (withInput_mapNext hgroups fun _ => rfl)),
      accept_mapNext rfl (withLen_mapNext hraise len (withInput_mapNext hgroups fun bs => ?_))⟩
    rw [putResult_poke hk32]
    cases groupsOk bs <;> rfl
  · have hgroups : ibufGroups s 8 = ibufGroups s 6 := rfl
    rw [exec, exec, execValidate, execValidate, withLen_of_legal (by decide), withLen_of_legal (by decide), hgroups]

end Sys2Proof.Machine

/-! ### The command table (R110 to R115) -/

namespace Sys2Proof.Machine

/-- Settles O35: each row is read off the table, and from index 9 on there is none (R115). -/
theorem commandTableHasNineRows : Obligations.CommandTableHasNineRows :=
  ⟨rfl, rfl, rfl, rfl, rfl, rfl, rfl, rfl, rfl, fun _ hk => cmdTab_of_ge hk⟩

/-- Settles O36. -/
theorem lookupWritesTheRowOfTheCommand : Obligations.LookupWritesTheRowOfTheCommand := fun _ _ e hs he =>
  ⟨_, execLookup_next.2 ⟨accepting_iff.1 hs, .inl ⟨e, he, rfl⟩⟩, rfl, rfl, rfl, completedStatus_statusCompleted _ _,
    rfl, rfl, ⟨fun _ => rfl, rfl, rfl⟩, rfl, rfl⟩

theorem cmdLegal_of_ge {cmd : BitVec 4} (h : 9 ≤ cmd.toNat) : cmdLegal cmd = false :=
  decide_eq_false (Nat.not_lt.2 h)

/-- A byte of a result is found in OBUF under its own index (R24). -/
theorem obufByte_putResult {bs : List Byte} {k : Nat} (hk : k < bs.length) (s : State) :
    obufByte (putResult bs s) k = some bs[k] := Memory.read_writeBytes_inside _ _ _ hk

/-- R120, R125: a frame put into OBUF starts with the two bytes of its command code. -/
theorem obufByte_frameBytes (code : Word) (ws : List Word) (s : State) :
    obufByte (putResult (frameBytes code ws) s) 0 = some (hiByte code) ∧
      obufByte (putResult (frameBytes code ws) s) 1 = some (loByte code) := by
  have hlen := frameBytes_length code ws
  exact ⟨obufByte_putResult (by omega) s, obufByte_putResult (by omega) s⟩

/-- R121, R122: a `frame` or a `framed` takes a fault, or it completes with a frame of its command's row. -/
theorem exec_framing_cases {i : Instr} {cmd : BitVec 4} {s t : State} (hi : i = .frame cmd ∨ ∃ nw, i = .framed cmd nw)
    (h : exec i s = .next t) :
    (∃ c, t = raiseFault c s) ∨
      ∃ e ws, cmdTab cmd.toNat = some e ∧ t = complete false (putResult (frameBytes e.code ws) s) := by
  obtain rfl | ⟨nw, rfl⟩ := hi
  · obtain ⟨-, ⟨e, he, rfl⟩ | ⟨-, rfl⟩⟩ := execFrame_next.1 h
    · exact .inr ⟨e, [], he, rfl⟩
    · exact .inl ⟨_, rfl⟩
  · obtain ⟨-, ⟨e, he, ⟨-, ws, -, rfl⟩ | ⟨-, rfl⟩⟩ | ⟨-, rfl⟩⟩ := execFramed_next.1 h
    · exact .inr ⟨e, ws, he, rfl⟩
    · exact .inl ⟨_, rfl⟩
    · exact .inl ⟨_, rfl⟩

/-- Settles O37: an index from 9 on is an operand fault of each request that takes one (R145), and a frame that
completes is built from a row, whose index is below 9. -/
theorem commandSetIsClosed : Obligations.CommandSetIsClosed := by
  refine ⟨fun s cmd i hs hcmd hi => ?_, fun s t cmd i hi h ht => ?_⟩
  · have hfault : operandFault i = some .illegalField := by
      obtain rfl | ⟨nw, rfl⟩ | rfl := hi <;> simp [operandFault, cmdLegal_of_ge hcmd]
    exact next_of_raiseFault (exec_of_operandFault hs hfault)
  · obtain ⟨c, rfl⟩ | ⟨e, ws, he, rfl⟩ := exec_framing_cases hi h
    · simp at ht
    · have hrow : cmd.toNat < 9 := (cmdTab_isSome _).1 (by simp [he])
      exact ⟨cmd.toNat, e, hrow, he, obufByte_frameBytes e.code ws s⟩

end Sys2Proof.Machine

/-! ### While STATUS.FAULT = 1 (R30, R142, R143, R147) -/

namespace Sys2Proof.Machine

/-- Settles O39. -/
theorem faultActionRecordsTheFirstCause : Obligations.FaultActionRecordsTheFirstCause :=
  ⟨fun c s => ⟨rfl, raisedStatus_statusRaised s.status c⟩, rfl, rfl, rfl, rfl⟩

theorem accepting_eq_false_iff {s : State} : s.accepting = false ↔ statusFault s.status = true := by
  simp [State.accepting]

section
variable {s : State} (hs : s.accepting = false)
include hs

/-- R30: a later fault changes nothing at all. -/
theorem raiseFault_of_fault (c : Cause) : raiseFault c s = s := by
  rw [raiseFault, statusRaised_of_fault c (accepting_eq_false_iff.1 hs)]

/-- R143: no request has a step. -/
theorem exec_of_fault (i : Instr) : exec i s = .fault .requestStuck := by
  cases i <;> exact accept_of_fault (accepting_eq_false_iff.1 hs) _

/-- R143: no word has a step, whether or not it names a request. -/
theorem issue_of_fault (rq : RequestWord) : issue rq s = .fault .requestStuck := by
  unfold issue
  cases decode rq with
  | ok i => exact exec_of_fault hs i
  | error r => exact accept_of_fault (accepting_eq_false_iff.1 hs) _

/-- R30, R147: no action but reset writes STATUS. -/
theorem perform_status_of_fault {act : HostAction} {t : State} (h : perform act s = .next t) (hact : act ≠ .reset) :
    t.status = s.status := by
  cases act with
  | rd a =>
    obtain ⟨v, rfl | rfl⟩ := hostRead_cases h
    · rw [raiseFault_of_fault hs, returnByte_status]
    · rfl
  | wr a v =>
    obtain rfl | ⟨k, -, rfl⟩ | ⟨j, d, rfl⟩ := hostWrite_cases h
    · rw [raiseFault_of_fault hs]
    · rfl
    · exact setDin_status j d s
  | issue rq => cases (issue_of_fault hs rq).symm.trans h
  | reset => exact absurd rfl hact

/-- R56: an illegal read hands the host 0x00 and changes nothing more. -/
theorem step_read_unmapped_of_fault {a : HAddr} (ha : unmappedAddr a = true) :
    step (s.queue (.rd a)) = .next { s with returned := 0x00 :: s.returned } := by
  have hread : hostRead a s = .next (returnByte 0x00 (raiseFault .illegalAccess s)) :=
    hostRead_next.2 (.inl ⟨hostReg_eq_none.2 ha, rfl⟩)
  rw [raiseFault_of_fault hs] at hread
  exact hread

/-- R56: an illegal write changes nothing. -/
theorem step_write_illegal_of_fault {a : HAddr} (ha : unmappedAddr a = true ∨ readOnlyAddr a = true) (v : Byte) :
    step (s.queue (.wr a v)) = .next s := by
  have hwrite : hostWrite a v s = .next (raiseFault .illegalAccess s) :=
    hostWrite_next.2 (.inl ⟨hostStore_of_illegal ha v s, rfl⟩)
  rw [raiseFault_of_fault hs] at hwrite
  exact hwrite

end

/-- R53: a write of `IBUF[k]` stores the byte, in every state of STATUS. -/
theorem step_write_ibuf (s : State) {k : Nat} (hk : k < 32) (v : Byte) :
    step (s.queue (.wr (BitVec.ofNat 7 k) v)) = .next { s with mem := Memory.write s.mem k v } :=
  step_write_of_store (hostReg_ibufAddr hk) (by rw [hostStore, ibufBase, Nat.zero_add])

/-- Settles O9: no request is accepted, the legal accesses are those of every state, and the fault that an illegal one
takes is a later one. -/
theorem onlyRequestsAreStuckWhileFaulted : Obligations.OnlyRequestsAreStuckWhileFaulted := fun s hs =>
  ⟨issue_of_fault hs,
    exec_of_fault hs,
    fun _ _ _ hreg hv => step_read_of_content hreg hv,
    fun _ v hk => step_write_ibuf s hk v,
    fun j _ => step_write_of_store (hostReg_dinHiAddr j) rfl,
    fun j _ => step_write_of_store (hostReg_dinLoAddr j) rfl,
    fun _ ha => step_read_unmapped_of_fault hs ha,
    fun _ v ha => step_write_illegal_of_fault hs ha v,
    rfl⟩

/-- Settles O40: STATUS itself stays. -/
theorem firstCauseIsKeptUntilReset : Obligations.FirstCauseIsKeptUntilReset := by
  intro s t hs h hreset
  have hstatus : t.status = s.status := by
    obtain ⟨-, rfl⟩ | ⟨act, rest, hpending, hact⟩ := step_cases h
    · rfl
    · have hne : act ≠ .reset := by rintro rfl; exact hreset rest hpending
      exact perform_status_of_fault (s := { s with pending := rest }) hs hact hne
  exact ⟨by rwa [State.accepting, hstatus], by rw [hstatus]⟩

end Sys2Proof.Machine

/-! ### Where a step stops (R65, R140, R143) -/

namespace Sys2Proof.Machine

/-- R173: a legal request, accepted, whose inputs are all written answers a next state. -/
theorem exec_of_written {i : Instr} {s : State} (hwf : i.WellFormed) (hs : s.accepting = true)
    (hin : inputsWritten i s = true) : ∃ t, exec i s = .next t := by
  have hf := accepting_iff.1 hs
  cases i with
  | crc =>
    obtain ⟨w, hw⟩ := Option.ne_none_iff_exists'.1 (mt dinWord_eq_none.1 (ne_false_of_eq_true hin))
    exact ⟨_, execCrc_next.2 ⟨hf, w, hw, rfl⟩⟩
  | validate len =>
    obtain ⟨b, hb⟩ := Option.ne_none_iff_exists'.1 (mt ibufGroups_eq_none.1 (ne_false_of_eq_true hin))
    exact ⟨_, execValidate_next.2 ⟨hf, .inl ⟨of_decide_eq_true hwf, b, hb, rfl⟩⟩⟩
  | strip len =>
    obtain ⟨b, hb⟩ := Option.ne_none_iff_exists'.1 (mt ibufGroups_eq_none.1 (ne_false_of_eq_true hin))
    exact ⟨_, execStrip_next.2 ⟨hf, .inl ⟨of_decide_eq_true hwf, b, hb, rfl⟩⟩⟩
  | frame cmd =>
    obtain ⟨e, he⟩ := cmdTab_of_lt (of_decide_eq_true hwf)
    exact ⟨_, execFrame_next.2 ⟨hf, .inl ⟨e, he, rfl⟩⟩⟩
  | framed cmd nw =>
    obtain ⟨hcmd, hnw⟩ : cmdLegal cmd = true ∧ (nw = 1#2 ∨ nw = 2#2) := by
      simpa [Instr.WellFormed, Instr.wf, nwLegal] using hwf
    obtain ⟨e, he⟩ := cmdTab_of_lt (of_decide_eq_true hcmd)
    obtain ⟨ws, hws⟩ := Option.ne_none_iff_exists'.1 (mt (dinWords_eq_none hnw).1 (ne_false_of_eq_true hin))
    exact ⟨_, execFramed_next.2 ⟨hf, .inl ⟨e, he, .inl ⟨hnw, ws, hws, rfl⟩⟩⟩⟩
  | lookup cmd =>
    obtain ⟨e, he⟩ := cmdTab_of_lt (of_decide_eq_true hwf)
    exact ⟨_, execLookup_next.2 ⟨hf, .inl ⟨e, he, rfl⟩⟩⟩

/-- The outcome is no refusal, and it is each of the two stops exactly under the condition given for it. -/
structure StopsExactly (o : Host.Outcome State Fault Refusal) (stuck unwritten : Prop) : Prop where
  ne_refused : ∀ r, o ≠ .refused r
  requestStuck_iff : o = .fault .requestStuck ↔ stuck
  unwrittenRead_iff : o = .fault .unwrittenRead ↔ unwritten

section
variable {o : Host.Outcome State Fault Refusal} {stuck unwritten : Prop}

theorem stopsExactly_next (h : ∃ t, o = .next t) (hstuck : ¬stuck) (hunwritten : ¬unwritten) :
    StopsExactly o stuck unwritten := by
  obtain ⟨t, rfl⟩ := h
  exact ⟨nofun, iff_of_false nofun hstuck, iff_of_false nofun hunwritten⟩

theorem stopsExactly_requestStuck (h : o = .fault .requestStuck) (hstuck : stuck) (hunwritten : ¬unwritten) :
    StopsExactly o stuck unwritten := by
  subst h
  exact ⟨nofun, iff_of_true rfl hstuck, iff_of_false nofun hunwritten⟩

theorem stopsExactly_unwrittenRead (h : o = .fault .unwrittenRead) (hstuck : ¬stuck) (hunwritten : unwritten) :
    StopsExactly o stuck unwritten := by
  subst h
  exact ⟨nofun, iff_of_false nofun hstuck, iff_of_true rfl hunwritten⟩

end

/-- R52, R65: a host read stops only at an unwritten byte. -/
theorem hostRead_stopsExactly (a : HAddr) (s : State) :
    StopsExactly (hostRead a s) False (∃ r, hostReg a = some r ∧ hostContent s r = none) := by
  cases hreg : hostReg a with
  | none => exact stopsExactly_next ⟨_, hostRead_next.2 (.inl ⟨hreg, rfl⟩)⟩ not_false (by simp)
  | some r =>
    cases hv : hostContent s r with
    | none => exact stopsExactly_unwrittenRead (step_read_of_unwritten hreg hv) not_false ⟨r, rfl, hv⟩
    | some v => exact stopsExactly_next ⟨_, step_read_of_content hreg hv⟩ not_false (by simp [hv])

/-- R53: a host write never stops. -/
theorem hostWrite_completes (a : HAddr) (v : Byte) (s : State) : ∃ t, hostWrite a v s = .next t := by
  unfold hostWrite
  cases (hostReg a).bind (hostStore v s) with
  | none => exact ⟨_, rfl⟩
  | some t => exact ⟨t, rfl⟩

/-- R77, R143, R145: an issue stops while STATUS.FAULT = 1, and where an accepted word passes every check and an input
is unwritten. -/
theorem issue_stopsExactly (rq : RequestWord) (s : State) :
    StopsExactly (issue rq s) (s.accepting = false)
      (s.accepting = true ∧ ∃ i, decode rq = .ok i ∧ i.WellFormed ∧ inputsWritten i s = false) := by
  cases hs : s.accepting with
  | false => exact stopsExactly_requestStuck (issue_of_fault hs rq) rfl (by simp)
  | true =>
    cases hdecode : decode rq with
    | error r => exact stopsExactly_next ⟨_, issue_of_reject hs hdecode⟩ (by simp) (by simp)
    | ok i =>
      rw [issue_of_decode hdecode]
      cases hoperand : operandFault i with
      | some c =>
        have hwf : ¬i.WellFormed := fun h => by simp [operandFault_eq_none.2 h] at hoperand
        exact stopsExactly_next ⟨_, exec_of_operandFault hs hoperand⟩ (by simp) (by simp [hwf])
      | none =>
        have hwf := operandFault_eq_none.1 hoperand
        cases hin : inputsWritten i s with
        | false => exact stopsExactly_unwrittenRead (exec_of_unwritten hwf hs hin) (by simp) ⟨rfl, i, rfl, hwf, hin⟩
        | true => exact stopsExactly_next (exec_of_written hwf hs hin) (by simp) (by simp [hin])

/-- R140: of the host's actions only a read and an issue can stop. -/
theorem perform_stopsExactly (act : HostAction) (s : State) :
    StopsExactly (perform act s) (s.accepting = false ∧ ∃ rq, act = .issue rq)
      ((∃ a r, act = .rd a ∧ hostReg a = some r ∧ hostContent s r = none) ∨
        ∃ rq i, act = .issue rq ∧ s.accepting = true ∧ decode rq = .ok i ∧ i.WellFormed ∧
          inputsWritten i s = false) := by
  cases act with
  | rd a => simpa [perform] using hostRead_stopsExactly a s
  | wr a v => exact stopsExactly_next (hostWrite_completes a v s) (by simp) (by simp)
  | issue rq => simpa [perform] using issue_stopsExactly rq s
  | reset => exact stopsExactly_next ⟨_, rfl⟩ (by simp) (by simp)

theorem step_of_noPending {s : State} (h : s.pending = []) : step s = .next s := by simp only [step, performNext, h]

theorem step_of_pending {s : State} {act : HostAction} {rest : List HostAction} (h : s.pending = act :: rest) :
    step s = perform act { s with pending := rest } := by simp only [step, performNext, h]

theorem accepting_setPending (s : State) (acts : List HostAction) :
    { s with pending := acts }.accepting = s.accepting := rfl

theorem hostContent_setPending (s : State) (acts : List HostAction) (r : HostReg) :
    hostContent { s with pending := acts } r = hostContent s r := by cases r <;> rfl

theorem inputsWritten_setPending (i : Instr) (s : State) (acts : List HostAction) :
    inputsWritten i { s with pending := acts } = inputsWritten i s := by cases i <;> rfl

/-- Settles O12: the step stops exactly where performing its action does. -/
theorem stepStopsOnlyWhenStuckOrUnwritten : Obligations.StepStopsOnlyWhenStuckOrUnwritten := by
  intro s
  cases hpending : s.pending with
  | nil => simp [step_of_noPending hpending]
  | cons act rest =>
    have h := perform_stopsExactly act { s with pending := rest }
    simp only [accepting_setPending, hostContent_setPending, inputsWritten_setPending] at h
    rw [step_of_pending hpending]
    exact ⟨h.ne_refused, by simpa using h.requestStuck_iff, by simpa using h.unwrittenRead_iff⟩

end Sys2Proof.Machine

/-! ### Reset, waiting, and the requests that complete (R170 to R173) -/

namespace Sys2Proof.Machine

/-- Settles O10. -/
theorem waitingChangesNothing : Obligations.WaitingChangesNothing := fun _ => step_of_noPending

/-- R38, R170: the reset action leaves no half of DIN written, whatever the state held. -/
theorem hostReset_din_unwritten (s : State) (j : Fin 2) :
    dinHi (hostReset s) j = none ∧ dinLo (hostReset s) j = none := by
  have hdin : dinReg (hostReset s) j = DataWord.reset := by fin_cases j <;> rfl
  exact ⟨dinHi_eq_none.2 (by rw [hdin]; rfl), dinLo_eq_none.2 (by rw [hdin]; rfl)⟩

/-- Settles O18: the reset action performs `hostReset`, and a step that leaves a fault is no other one, since any other
keeps STATUS.FAULT (O40). -/
theorem resetIsTheOnlyWayOutOfAFault : Obligations.ResetIsTheOnlyWayOutOfAFault := by
  refine ⟨fun s => ⟨hostReset s, rfl, rfl, rfl, rfl, rfl, rfl, rfl, rfl, Memory.read_nil, hostReset_din_unwritten s,
    rfl, rfl⟩, fun s t h hs ht => ?_⟩
  by_contra hreset
  obtain ⟨hfaulted, -⟩ := firstCauseIsKeptUntilReset s t hs h fun rest hpending => hreset ⟨rest, hpending⟩
  exact absurd ht (ne_true_of_eq_false hfaulted)

/-- R77: a request with legal operands takes no fault, so the block still accepts requests after it. -/
theorem accepting_of_exec_legal {i : Instr} {s t : State} (hwf : i.WellFormed) (h : exec i s = .next t) :
    t.accepting = true := by
  have hlen {len : BitVec 6} (hlegal : lenLegal len = true) : ¬Config.ibufCap < len.toNat :=
    Nat.not_lt.2 (of_decide_eq_true hlegal)
  have hcmd {cmd : BitVec 4} (hlegal : cmdLegal cmd = true) : cmdTab cmd.toNat ≠ none := by
    obtain ⟨e, he⟩ := cmdTab_of_lt (of_decide_eq_true hlegal)
    simp [he]
  rw [accepting_iff]
  cases i with
  | crc =>
    obtain ⟨hf, w, -, rfl⟩ := execCrc_next.1 h
    simpa using hf
  | validate len =>
    obtain ⟨hf, ⟨-, b, -, rfl⟩ | ⟨hlong, -⟩⟩ := execValidate_next.1 h
    · simpa using hf
    · exact absurd hlong (hlen hwf)
  | strip len =>
    obtain ⟨hf, ⟨-, b, -, rfl⟩ | ⟨hlong, -⟩⟩ := execStrip_next.1 h
    · split <;> simpa using hf
    · exact absurd hlong (hlen hwf)
  | frame cmd =>
    obtain ⟨hf, ⟨e, -, rfl⟩ | ⟨hnone, -⟩⟩ := execFrame_next.1 h
    · simpa using hf
    · exact absurd hnone (hcmd hwf)
  | framed cmd nw =>
    obtain ⟨hlegal, hnw⟩ : cmdLegal cmd = true ∧ (nw = 1#2 ∨ nw = 2#2) := by
      simpa [Instr.WellFormed, Instr.wf, nwLegal] using hwf
    obtain ⟨hf, ⟨e, -, ⟨-, ws, -, rfl⟩ | ⟨hcount, -⟩⟩ | ⟨hnone, -⟩⟩ := execFramed_next.1 h
    · simpa using hf
    · exact absurd hnw hcount
    · exact absurd hnone (hcmd hlegal)
  | lookup cmd =>
    obtain ⟨hf, ⟨e, -, rfl⟩ | ⟨hnone, -⟩⟩ := execLookup_next.1 h
    · simpa using hf
    · exact absurd hnone (hcmd hwf)

/-- Settles O45: the request answers a next state, and as its operands are legal that state is one of completion. -/
theorem legalRequestWithWrittenInputsCompletes : Obligations.LegalRequestWithWrittenInputsCompletes := by
  intro i s hwf hs hin
  obtain ⟨t, h⟩ := exec_of_written hwf hs hin
  have ht := accepting_of_exec_legal hwf h
  refine ⟨t, h, ht, ?_⟩
  obtain ⟨c, rfl⟩ | ⟨-, m, hstatus⟩ := exec_faults_or_completes h
  · simp at ht
  · rw [hstatus, statusValid_completed]

end Sys2Proof.Machine

/-! ### The words of the test vectors (spec/95_test_vectors.md 2.3 to 2.7) -/

namespace Sys2Proof.Machine

/-- Settles O5: each of the seven accepted words is the one that `encode` gives its request (R81, `decode_eq_ok`). The
refused words are evaluated: three have an OP that no row of the table has (R78), two an unused NW that is not 0 (R76). -/
theorem decodeOfListedWords : Obligations.DecodeOfListedWords := by
  have hreserved : decode 0x0000 = .error .reservedOp ∧ decode 0x7000 = .error .reservedOp ∧
      decode 0xF123 = .error .reservedOp := ⟨rfl, rfl, rfl⟩
  have hunused : decode 0x1040 = .error .unusedFieldNotZero ∧ decode 0x4340 = .error .unusedFieldNotZero := ⟨rfl, rfl⟩
  simp only [Obligations.DecodeOfListedWords, decode_eq_ok, hreserved, hunused, and_true]
  -- The requests are left, each as an equation of its word: `crc`, `validate`, `strip`, `frame`, `framed` twice, `lookup`.
  exact ⟨rfl, rfl, rfl, rfl, rfl, rfl, rfl⟩

end Sys2Proof.Machine
